-- ==== Sys2Proof/Word.lean ====
section
/-!
DEFINITION. The machine's word types (spec 00 R7, R9): every register value is unsigned, and nothing here interprets
a value as signed.
-/

namespace Sys2Proof

/-- A byte: a V register, a timer, a memory cell, the immediate `kk` (00 R7, 30 R72). -/
abbrev Byte := BitVec 8

/-- A 16-bit value: `I`, `PC`, a stack entry, an instruction word, the key snapshot (00 R7, 10 R33). -/
abbrev Word := BitVec 16

/-- A 4-bit field of an instruction word: `n`, or a nibble the decoder does not examine (30 R72). -/
abbrev Nibble := BitVec 4

/-- The 12-bit address field `nnn` (30 R72). -/
abbrev Addr := BitVec 12

/-- The index of a V register or of a key, 0 to 15 (10 R20, R33). -/
abbrev Reg := Fin 16

end Sys2Proof
end

