-- ==== Sys2Proof/Syntax.lean ====
section
/-!
DEFINITION. The instructions: one constructor per row of spec/opcode_table.json, operands in the order the spec writes
them (30 R86). A nibble the default decoder ignores (00E0, 00EE, 5xy_, 9xy_) is kept, so that an instruction is exactly
one word and FAULT_INSN can be the fetched word (60 R213; notes/assumptions/12.md).
-/

namespace Sys2Proof

/-- The 34 instructions and the default class (30 R74-R80, 45 R200). -/
inductive Instr where
  /-- 0xE0: clear the framebuffer; `x` is the nibble ignored unless `DECODE_STRICT` (43 R161). -/
  | cls (x : Nibble)
  /-- 0xEE: return; `x` is the nibble ignored unless `DECODE_STRICT` (40 R93). -/
  | ret (x : Nibble)
  /-- 1nnn (40 R94). -/
  | jp (nnn : Addr)
  /-- 2nnn (40 R95). -/
  | call (nnn : Addr)
  /-- 3xkk (40 R96). -/
  | seImm (x : Reg) (kk : Byte)
  /-- 4xkk (40 R97). -/
  | sneImm (x : Reg) (kk : Byte)
  /-- 5xyn; `n` is ignored unless `DECODE_STRICT` (40 R98). -/
  | seReg (x y : Reg) (n : Nibble)
  /-- 6xkk (41 R111). -/
  | ldImm (x : Reg) (kk : Byte)
  /-- 7xkk (41 R112). -/
  | addImm (x : Reg) (kk : Byte)
  /-- 8xy0 (41 R113). -/
  | ldReg (x y : Reg)
  /-- 8xy1 (41 R114). -/
  | or (x y : Reg)
  /-- 8xy2 (41 R115). -/
  | and (x y : Reg)
  /-- 8xy3 (41 R116). -/
  | xor (x y : Reg)
  /-- 8xy4 (41 R117). -/
  | addReg (x y : Reg)
  /-- 8xy5 (41 R118). -/
  | sub (x y : Reg)
  /-- 8xy6 (41 R119). -/
  | shr (x y : Reg)
  /-- 8xy7 (41 R120). -/
  | subn (x y : Reg)
  /-- 8xyE (41 R121). -/
  | shl (x y : Reg)
  /-- 9xyn; `n` is ignored unless `DECODE_STRICT` (40 R99). -/
  | sneReg (x y : Reg) (n : Nibble)
  /-- Annn (42 R140). -/
  | ldI (nnn : Addr)
  /-- Bnnn (40 R100). -/
  | jpV0 (nnn : Addr)
  /-- Cxkk (41 R122). -/
  | rnd (x : Reg) (kk : Byte)
  /-- Dxyn (43 R165). -/
  | drw (x y : Reg) (n : Nibble)
  /-- Ex9E (44 R181). -/
  | skp (x : Reg)
  /-- ExA1 (44 R182). -/
  | sknp (x : Reg)
  /-- Fx07 (44 R183). -/
  | ldVxDt (x : Reg)
  /-- Fx0A (44 R184). -/
  | ldVxK (x : Reg)
  /-- Fx15 (44 R185). -/
  | ldDtVx (x : Reg)
  /-- Fx18 (44 R186). -/
  | ldStVx (x : Reg)
  /-- Fx1E (42 R141). -/
  | addI (x : Reg)
  /-- Fx29 (42 R142). -/
  | ldF (x : Reg)
  /-- Fx33 (42 R143). -/
  | ldB (x : Reg)
  /-- Fx55 (42 R144). -/
  | ldMemVx (x : Reg)
  /-- Fx65 (42 R145). -/
  | ldVxMem (x : Reg)
  /-- Every word no other row selects (45 R200). -/
  | unrecognized (w : Word)
  deriving DecidableEq, Repr

end Sys2Proof
end

