-- ==== Sys2Proof/Decode.lean ====
section
/-!
DEFINITION. The decoder (spec 30 R70-R80), the encoder written from the same tables, and the rows of
spec/opcode_table.json. Decoding is total on words; on bytes it rejects, by name, only a sequence shorter than a word.
-/

namespace Sys2Proof

/-! ## Fields of a word (30 R72) -/

/-- `family`: bits 15:12. -/
def familyOf (w : Word) : Nibble := w.extractLsb' 12 4

/-- Bits 11:8, as a nibble. -/
def xNibble (w : Word) : Nibble := w.extractLsb' 8 4

/-- `x`: bits 11:8, a register index. -/
def xOf (w : Word) : Reg := (xNibble w).toFin

/-- Bits 7:4, as a nibble. -/
def yNibble (w : Word) : Nibble := w.extractLsb' 4 4

/-- `y`: bits 7:4, a register index. -/
def yOf (w : Word) : Reg := (yNibble w).toFin

/-- `n`: bits 3:0. -/
def nOf (w : Word) : Nibble := w.extractLsb' 0 4

/-- `kk`: bits 7:0. -/
def kkOf (w : Word) : Byte := w.extractLsb' 0 8

/-- `nnn`: bits 11:0. -/
def nnnOf (w : Word) : Addr := w.extractLsb' 0 12

/-! ## The decode map (30 R74-R80) -/

/-- Family 0x0, keyed on `kk`; under `DECODE_STRICT` the `x` nibble must be 0 (30 R74). -/
def decodeFamily0 (strict : Bool) (w : Word) : Instr :=
  if strict && xNibble w != 0#4 then .unrecognized w
  else match kkOf w with
    | 0xE0#8 => .cls (xNibble w)
    | 0xEE#8 => .ret (xNibble w)
    | _ => .unrecognized w

/-- Families 0x5 and 0x9: any `n`, or under `DECODE_STRICT` only 0 (30 R75). -/
def decodeRegSkip (strict : Bool) (make : Reg → Reg → Nibble → Instr) (w : Word) : Instr :=
  if strict && nOf w != 0#4 then .unrecognized w else make (xOf w) (yOf w) (nOf w)

/-- Family 0x8, keyed on `n` (30 R76). -/
def decodeFamily8 (w : Word) : Instr :=
  match nOf w with
  | 0x0#4 => .ldReg (xOf w) (yOf w)
  | 0x1#4 => .or (xOf w) (yOf w)
  | 0x2#4 => .and (xOf w) (yOf w)
  | 0x3#4 => .xor (xOf w) (yOf w)
  | 0x4#4 => .addReg (xOf w) (yOf w)
  | 0x5#4 => .sub (xOf w) (yOf w)
  | 0x6#4 => .shr (xOf w) (yOf w)
  | 0x7#4 => .subn (xOf w) (yOf w)
  | 0xE#4 => .shl (xOf w) (yOf w)
  | _ => .unrecognized w

/-- Family 0xE, keyed on `kk` (30 R77). -/
def decodeFamilyE (w : Word) : Instr :=
  match kkOf w with
  | 0x9E#8 => .skp (xOf w)
  | 0xA1#8 => .sknp (xOf w)
  | _ => .unrecognized w

/-- Family 0xF, keyed on `kk` (30 R78). -/
def decodeFamilyF (w : Word) : Instr :=
  match kkOf w with
  | 0x07#8 => .ldVxDt (xOf w)
  | 0x0A#8 => .ldVxK (xOf w)
  | 0x15#8 => .ldDtVx (xOf w)
  | 0x18#8 => .ldStVx (xOf w)
  | 0x1E#8 => .addI (xOf w)
  | 0x29#8 => .ldF (xOf w)
  | 0x33#8 => .ldB (xOf w)
  | 0x55#8 => .ldMemVx (xOf w)
  | 0x65#8 => .ldVxMem (xOf w)
  | _ => .unrecognized w

/-- The decoder: a total function of the word and of `DECODE_STRICT` (30 R74-R80). The last arm is family 0xF. -/
def decode (strict : Bool) (w : Word) : Instr :=
  match familyOf w with
  | 0x0#4 => decodeFamily0 strict w
  | 0x1#4 => .jp (nnnOf w)
  | 0x2#4 => .call (nnnOf w)
  | 0x3#4 => .seImm (xOf w) (kkOf w)
  | 0x4#4 => .sneImm (xOf w) (kkOf w)
  | 0x5#4 => decodeRegSkip strict .seReg w
  | 0x6#4 => .ldImm (xOf w) (kkOf w)
  | 0x7#4 => .addImm (xOf w) (kkOf w)
  | 0x8#4 => decodeFamily8 w
  | 0x9#4 => decodeRegSkip strict .sneReg w
  | 0xA#4 => .ldI (nnnOf w)
  | 0xB#4 => .jpV0 (nnnOf w)
  | 0xC#4 => .rnd (xOf w) (kkOf w)
  | 0xD#4 => .drw (xOf w) (yOf w) (nOf w)
  | 0xE#4 => decodeFamilyE w
  | _ => decodeFamilyF w

/-! ## Bytes (30 R70, R71; 20 R53) -/

/-- Why a byte sequence is no instruction: no encoding is illegal (30 R79), but a word takes two bytes. -/
inductive DecodeError where
  /-- Fewer than two bytes are left. -/
  | truncated
  deriving DecidableEq, Repr

/-- The word of two bytes, the one at the lower address in bits 15:8 (20 R53). -/
def bigEndian (high low : Byte) : Word := (high ++ low).cast (by decide)

/-- The instruction at the front of a byte sequence, and the bytes after it. -/
def decodeBytes (strict : Bool) : List Byte → Except DecodeError (Instr × List Byte)
  | high :: low :: rest => .ok (decode strict (bigEndian high low), rest)
  | _ => .error .truncated

/-- The bytes of a word as the hardware stores it, lowest address first (20 R53). -/
def wordBytes (w : Word) : List Byte := [w.extractLsb' 8 8, w.extractLsb' 0 8]

/-- What the decoder reads, under the default `DECODE_STRICT = false`, from an instruction whose bits, numbered as
spec/opcode_table.json numbers them, are `w`; bits at `nbits` and above are 0. -/
def decodeTableWord (nbits w : Nat) : Option Instr :=
  match decodeBytes false (wordBytes (BitVec.ofNat 16 (w % 2 ^ nbits))) with
  | .ok (i, _) => some i
  | .error _ => none

/-! ## The encoder (30 R72, R86) -/

/-- A register index as the nibble that encodes it. -/
def regNibble (x : Reg) : Nibble := BitVec.ofFin x

/-- Format NNN. -/
def wordNnn (family : Nibble) (nnn : Addr) : Word := (family ++ nnn).cast (by decide)

/-- Format XKK. -/
def wordXkk (family x : Nibble) (kk : Byte) : Word := (family ++ (x ++ kk)).cast (by decide)

/-- Format XYN. -/
def wordXyn (family x y n : Nibble) : Word := (family ++ (x ++ (y ++ n))).cast (by decide)

/-- The word of an instruction: its operands in the fields of 30 R72, its pattern's fixed nibbles elsewhere (30 R86). -/
def encode : Instr → Word
  | .cls x => wordXkk 0x0#4 x 0xE0#8
  | .ret x => wordXkk 0x0#4 x 0xEE#8
  | .jp nnn => wordNnn 0x1#4 nnn
  | .call nnn => wordNnn 0x2#4 nnn
  | .seImm x kk => wordXkk 0x3#4 (regNibble x) kk
  | .sneImm x kk => wordXkk 0x4#4 (regNibble x) kk
  | .seReg x y n => wordXyn 0x5#4 (regNibble x) (regNibble y) n
  | .ldImm x kk => wordXkk 0x6#4 (regNibble x) kk
  | .addImm x kk => wordXkk 0x7#4 (regNibble x) kk
  | .ldReg x y => wordXyn 0x8#4 (regNibble x) (regNibble y) 0x0#4
  | .or x y => wordXyn 0x8#4 (regNibble x) (regNibble y) 0x1#4
  | .and x y => wordXyn 0x8#4 (regNibble x) (regNibble y) 0x2#4
  | .xor x y => wordXyn 0x8#4 (regNibble x) (regNibble y) 0x3#4
  | .addReg x y => wordXyn 0x8#4 (regNibble x) (regNibble y) 0x4#4
  | .sub x y => wordXyn 0x8#4 (regNibble x) (regNibble y) 0x5#4
  | .shr x y => wordXyn 0x8#4 (regNibble x) (regNibble y) 0x6#4
  | .subn x y => wordXyn 0x8#4 (regNibble x) (regNibble y) 0x7#4
  | .shl x y => wordXyn 0x8#4 (regNibble x) (regNibble y) 0xE#4
  | .sneReg x y n => wordXyn 0x9#4 (regNibble x) (regNibble y) n
  | .ldI nnn => wordNnn 0xA#4 nnn
  | .jpV0 nnn => wordNnn 0xB#4 nnn
  | .rnd x kk => wordXkk 0xC#4 (regNibble x) kk
  | .drw x y n => wordXyn 0xD#4 (regNibble x) (regNibble y) n
  | .skp x => wordXkk 0xE#4 (regNibble x) 0x9E#8
  | .sknp x => wordXkk 0xE#4 (regNibble x) 0xA1#8
  | .ldVxDt x => wordXkk 0xF#4 (regNibble x) 0x07#8
  | .ldVxK x => wordXkk 0xF#4 (regNibble x) 0x0A#8
  | .ldDtVx x => wordXkk 0xF#4 (regNibble x) 0x15#8
  | .ldStVx x => wordXkk 0xF#4 (regNibble x) 0x18#8
  | .addI x => wordXkk 0xF#4 (regNibble x) 0x1E#8
  | .ldF x => wordXkk 0xF#4 (regNibble x) 0x29#8
  | .ldB x => wordXkk 0xF#4 (regNibble x) 0x33#8
  | .ldMemVx x => wordXkk 0xF#4 (regNibble x) 0x55#8
  | .ldVxMem x => wordXkk 0xF#4 (regNibble x) 0x65#8
  | .unrecognized w => w

/-! ## The opcode table (30 R80) -/

/-- A row of spec/opcode_table.json: its `match` (here `bits`) and `mask`, and the pair that holds under
`DECODE_STRICT`. -/
structure OpcodeRow where
  mnemonic   : String
  bits       : Word
  mask       : Word
  strictBits : Word
  strictMask : Word
  deriving DecidableEq, Repr

/-- Whether a row selects a word. -/
def rowMatches (strict : Bool) (w : Word) (row : OpcodeRow) : Bool :=
  if strict then w &&& row.strictMask == row.strictBits else w &&& row.mask == row.bits

/-- Rows of families 0x0 to 0x7. -/
def rowsControl : List OpcodeRow :=
  [⟨"CLS", 0x00E0#16, 0xF0FF#16, 0x00E0#16, 0xFFFF#16⟩,
   ⟨"RET", 0x00EE#16, 0xF0FF#16, 0x00EE#16, 0xFFFF#16⟩,
   ⟨"JP", 0x1000#16, 0xF000#16, 0x1000#16, 0xF000#16⟩,
   ⟨"CALL", 0x2000#16, 0xF000#16, 0x2000#16, 0xF000#16⟩,
   ⟨"SE_IMM", 0x3000#16, 0xF000#16, 0x3000#16, 0xF000#16⟩,
   ⟨"SNE_IMM", 0x4000#16, 0xF000#16, 0x4000#16, 0xF000#16⟩,
   ⟨"SE_REG", 0x5000#16, 0xF000#16, 0x5000#16, 0xF00F#16⟩,
   ⟨"LD_IMM", 0x6000#16, 0xF000#16, 0x6000#16, 0xF000#16⟩,
   ⟨"ADD_IMM", 0x7000#16, 0xF000#16, 0x7000#16, 0xF000#16⟩]

/-- Rows of family 0x8. -/
def rowsAlu : List OpcodeRow :=
  [⟨"LD_REG", 0x8000#16, 0xF00F#16, 0x8000#16, 0xF00F#16⟩,
   ⟨"OR", 0x8001#16, 0xF00F#16, 0x8001#16, 0xF00F#16⟩,
   ⟨"AND", 0x8002#16, 0xF00F#16, 0x8002#16, 0xF00F#16⟩,
   ⟨"XOR", 0x8003#16, 0xF00F#16, 0x8003#16, 0xF00F#16⟩,
   ⟨"ADD_REG", 0x8004#16, 0xF00F#16, 0x8004#16, 0xF00F#16⟩,
   ⟨"SUB", 0x8005#16, 0xF00F#16, 0x8005#16, 0xF00F#16⟩,
   ⟨"SHR", 0x8006#16, 0xF00F#16, 0x8006#16, 0xF00F#16⟩,
   ⟨"SUBN", 0x8007#16, 0xF00F#16, 0x8007#16, 0xF00F#16⟩,
   ⟨"SHL", 0x800E#16, 0xF00F#16, 0x800E#16, 0xF00F#16⟩]

/-- Rows of families 0x9 to 0xE. -/
def rowsUpper : List OpcodeRow :=
  [⟨"SNE_REG", 0x9000#16, 0xF000#16, 0x9000#16, 0xF00F#16⟩,
   ⟨"LD_I", 0xA000#16, 0xF000#16, 0xA000#16, 0xF000#16⟩,
   ⟨"JP_V0", 0xB000#16, 0xF000#16, 0xB000#16, 0xF000#16⟩,
   ⟨"RND", 0xC000#16, 0xF000#16, 0xC000#16, 0xF000#16⟩,
   ⟨"DRW", 0xD000#16, 0xF000#16, 0xD000#16, 0xF000#16⟩,
   ⟨"SKP", 0xE09E#16, 0xF0FF#16, 0xE09E#16, 0xF0FF#16⟩,
   ⟨"SKNP", 0xE0A1#16, 0xF0FF#16, 0xE0A1#16, 0xF0FF#16⟩]

/-- Rows of family 0xF. -/
def rowsMisc : List OpcodeRow :=
  [⟨"LD_VX_DT", 0xF007#16, 0xF0FF#16, 0xF007#16, 0xF0FF#16⟩,
   ⟨"LD_VX_K", 0xF00A#16, 0xF0FF#16, 0xF00A#16, 0xF0FF#16⟩,
   ⟨"LD_DT_VX", 0xF015#16, 0xF0FF#16, 0xF015#16, 0xF0FF#16⟩,
   ⟨"LD_ST_VX", 0xF018#16, 0xF0FF#16, 0xF018#16, 0xF0FF#16⟩,
   ⟨"ADD_I", 0xF01E#16, 0xF0FF#16, 0xF01E#16, 0xF0FF#16⟩,
   ⟨"LD_F", 0xF029#16, 0xF0FF#16, 0xF029#16, 0xF0FF#16⟩,
   ⟨"LD_B", 0xF033#16, 0xF0FF#16, 0xF033#16, 0xF0FF#16⟩,
   ⟨"LD_MEM_VX", 0xF055#16, 0xF0FF#16, 0xF055#16, 0xF0FF#16⟩,
   ⟨"LD_VX_MEM", 0xF065#16, 0xF0FF#16, 0xF065#16, 0xF0FF#16⟩]

/-- The 34 rows of the table, without the default row UNRECOGNIZED (match 0, mask 0). -/
def opcodeRows : List OpcodeRow := rowsControl ++ rowsAlu ++ rowsUpper ++ rowsMisc

/-- Whether some row selects a word; the others are UNRECOGNIZED (30 R79, R80). -/
def recognized (strict : Bool) (w : Word) : Bool := opcodeRows.any (rowMatches strict w)

/-- The mnemonic of an instruction's row. -/
def mnemonic : Instr → String
  | .cls _ => "CLS"
  | .ret _ => "RET"
  | .jp _ => "JP"
  | .call _ => "CALL"
  | .seImm _ _ => "SE_IMM"
  | .sneImm _ _ => "SNE_IMM"
  | .seReg _ _ _ => "SE_REG"
  | .ldImm _ _ => "LD_IMM"
  | .addImm _ _ => "ADD_IMM"
  | .ldReg _ _ => "LD_REG"
  | .or _ _ => "OR"
  | .and _ _ => "AND"
  | .xor _ _ => "XOR"
  | .addReg _ _ => "ADD_REG"
  | .sub _ _ => "SUB"
  | .shr _ _ => "SHR"
  | .subn _ _ => "SUBN"
  | .shl _ _ => "SHL"
  | .sneReg _ _ _ => "SNE_REG"
  | .ldI _ => "LD_I"
  | .jpV0 _ => "JP_V0"
  | .rnd _ _ => "RND"
  | .drw _ _ _ => "DRW"
  | .skp _ => "SKP"
  | .sknp _ => "SKNP"
  | .ldVxDt _ => "LD_VX_DT"
  | .ldVxK _ => "LD_VX_K"
  | .ldDtVx _ => "LD_DT_VX"
  | .ldStVx _ => "LD_ST_VX"
  | .addI _ => "ADD_I"
  | .ldF _ => "LD_F"
  | .ldB _ => "LD_B"
  | .ldMemVx _ => "LD_MEM_VX"
  | .ldVxMem _ => "LD_VX_MEM"
  | .unrecognized _ => "UNRECOGNIZED"

end Sys2Proof
end

