-- ==== Sys2Proof/Config.lean ====
section
/-!
DEFINITION. What is fixed for a machine (spec 00 R7, R8), the commands a host may present (10 R35), and the free
values: opaque constants with no body, so that no proof can see what they are.
-/

namespace Sys2Proof

/-! ## Fixed parameters (00 R7) -/

/-- `MEM_SIZE`: addresses 0x000 to 0xFFF. -/
abbrev Config.memSize : Nat := 4096

/-- `ENTRY`: where programs are loaded and where PC starts. -/
abbrev Config.entry : Nat := 0x200

/-- `MAX_PROGRAM`: 0x1000 - 0x200. -/
abbrev Config.maxProgram : Nat := 3584

/-- `STACK_DEPTH`. -/
abbrev Config.stackDepth : Nat := 16

/-! ## Behaviour parameters (00 R8) -/

/-- `SHIFT_SOURCE`: the register 8xy6 and 8xyE shift (41 R119, R121). -/
inductive ShiftSource where
  | vx
  | vy
  deriving DecidableEq, Repr

/-- `VF_ORDER`: which of the two writes of a flag-writing 8xy_ comes last (41 R124). -/
inductive VfOrder where
  | destLast
  | flagLast
  deriving DecidableEq, Repr

/-- `ODD_PC_POLICY` and `LOW_EXEC_POLICY`: raise a fault, or fetch all the same (30 R70). -/
inductive FetchPolicy where
  | fault
  | fetch
  deriving DecidableEq, Repr

/-- `KEY_RANGE_POLICY`: what a key code of 0x10 or more names (44 R180). -/
inductive KeyRangePolicy where
  | notPressed
  | lowNibble
  deriving DecidableEq, Repr

/-- `LS_INCREMENT_I`: whether Fx55 and Fx65 advance I (42 R144, R145). -/
inductive LsIncrementI where
  | unchanged
  | xPlus1
  deriving DecidableEq, Repr

/-- `RESET_REGS`: whether RESET clears V, I, DT and ST or leaves any value in them (10 R39). -/
inductive ResetRegs where
  | zero
  | arbitrary
  deriving DecidableEq, Repr

/-- The behaviour parameters of 00 R8. They are fixed configuration: no command writes them (10 R31). The state carries
them as data so that a claim over every state holds for every choice (notes/assumptions/5.md). -/
structure Params where
  shiftSource    : ShiftSource
  vfOrder        : VfOrder
  decodeStrict   : Bool
  oddPcPolicy    : FetchPolicy
  lowExecPolicy  : FetchPolicy
  keyRangePolicy : KeyRangePolicy
  lsIncrementI   : LsIncrementI
  resetRegs      : ResetRegs
  font           : Vector Byte 80
  deriving DecidableEq, Repr

/-! ## Commands (10 R35) -/

/-- One transaction of the host carries exactly one of these (10 R35). `none` is the spec's NONE. -/
inductive Command where
  | reset
  | load (bytes : List Byte)
  | step (keys : Word) (rnd : Byte)
  | tick
  | none
  deriving DecidableEq, Repr, Inhabited

/-! ## Free values

Each takes the state's counter `draws`, which advances at every draw, so nothing relates one draw to the next. -/

/-- FREE VALUE: the command the host presents when the inbox holds none (60 R233, 93 U28; notes/assumptions/2.md). -/
opaque Config.hostCommand : Nat → Command

/-- FREE VALUE: which of several pressed keys Fx0A takes (44 R184, 93 U12; notes/assumptions/9.md). -/
opaque Config.keyChoice : Nat → Nat

/-- FREE VALUE: V0 to VF after a RESET under `RESET_REGS = ARBITRARY` (10 R39, 93 U4; notes/assumptions/6.md). -/
opaque Config.resetV : Nat → Vector Byte 16

/-- FREE VALUE: I after a RESET under `RESET_REGS = ARBITRARY` (10 R39, 93 U4; notes/assumptions/6.md). -/
opaque Config.resetI : Nat → Word

/-- FREE VALUE: DT after a RESET under `RESET_REGS = ARBITRARY` (10 R39, 93 U4; notes/assumptions/6.md). -/
opaque Config.resetDt : Nat → Byte

/-- FREE VALUE: ST after a RESET under `RESET_REGS = ARBITRARY` (10 R39, 93 U4; notes/assumptions/6.md). -/
opaque Config.resetSt : Nat → Byte

end Sys2Proof
end

