-- ==== Sys2Proof/Machine/Params.lean ====
section
/-!
DEFINITION. The default of every behaviour parameter (spec 00 R8), the font among them (70 R252).
-/

namespace Sys2Proof.Machine

/-- The conventional hexadecimal glyphs, 5 bytes each, glyph d at 5d (70 R252; general knowledge by 93 K1,
notes/assumptions/13.md). -/
def defaultFont : Vector Byte 80 :=
  #v[0xF0, 0x90, 0x90, 0x90, 0xF0,
     0x20, 0x60, 0x20, 0x20, 0x70,
     0xF0, 0x10, 0xF0, 0x80, 0xF0,
     0xF0, 0x10, 0xF0, 0x10, 0xF0,
     0x90, 0x90, 0xF0, 0x10, 0x10,
     0xF0, 0x80, 0xF0, 0x10, 0xF0,
     0xF0, 0x80, 0xF0, 0x90, 0xF0,
     0xF0, 0x10, 0x20, 0x40, 0x40,
     0xF0, 0x90, 0xF0, 0x90, 0xF0,
     0xF0, 0x90, 0xF0, 0x10, 0xF0,
     0xF0, 0x90, 0xF0, 0x90, 0x90,
     0xE0, 0x90, 0xE0, 0x90, 0xE0,
     0xF0, 0x80, 0x80, 0x80, 0xF0,
     0xE0, 0x90, 0x90, 0x90, 0xE0,
     0xF0, 0x80, 0xF0, 0x80, 0xF0,
     0xF0, 0x80, 0xF0, 0x80, 0x80]

/-- The value this spec adopts for each parameter (00 R8, 92 D4, D10, D11, D15-D18, D20, D22). -/
def defaultParams : Params where
  shiftSource    := .vx
  vfOrder        := .destLast
  decodeStrict   := false
  oddPcPolicy    := .fault
  lowExecPolicy  := .fault
  keyRangePolicy := .notPressed
  lsIncrementI   := .unchanged
  resetRegs      := .zero
  font           := defaultFont

end Sys2Proof.Machine
end

