-- ==== Sys2Proof/Machine/State.lean ====
section
/-!
DEFINITION. The machine's state (spec 10 R20-R31, R40), the two ways a step could stop, and the state after reset
(10 R39).
-/

namespace Sys2Proof.Machine

/-- `PHASE` (10 R29, R30). -/
inductive Phase where
  /-- After RESET: memory zero-filled, nothing loaded. -/
  | empty
  /-- After a successful LOAD. -/
  | running
  /-- After a fatal condition; only RESET leaves it. -/
  | halted
  deriving DecidableEq, Repr

/-- `FAULT_CODE` (60 R211). -/
inductive FaultCode where
  /-- 0: no fault. -/
  | none
  /-- 1: a push with SP = 16 (2nnn). -/
  | stackOverflow
  /-- 2: a pop with SP = 0 (00EE). -/
  | stackUnderflow
  /-- 3: a data byte address above 0xFFF (Dxyn, Fx33, Fx55, Fx65). -/
  | memRange
  /-- 4: a fetch with PC above 0xFFE. -/
  | fetchRange
  /-- 5: a fetch at an odd PC under `ODD_PC_POLICY = FAULT`. -/
  | fetchOdd
  /-- 6: a fetch below 0x200 under `LOW_EXEC_POLICY = FAULT`. -/
  | fetchLow
  /-- 7: a LOAD of more than 3584 bytes. -/
  | loadSize
  deriving DecidableEq, Repr

/-- What `raise Fatal(code, info)` carries (00 R12). -/
structure Fatal where
  code : FaultCode
  info : Word
  deriving DecidableEq, Repr

/-- The result code of a command (10 R38). -/
inductive ResultCode where
  /-- Executed. -/
  | ok
  /-- A STEP of Fx0A with no key pressed. -/
  | wait
  /-- A fatal condition was raised. -/
  | fatal
  /-- The command is not accepted in this phase (10 R37). -/
  | rejected
  deriving DecidableEq, Repr

/-- MEM (10 R28, 20 R50): the bytes that are not 0, by strictly rising address. An unlisted address reads as 0, what
RESET leaves everywhere (10 R39; notes/assumptions/8.md). -/
abbrev Memory := List Host.Cell

/-- FB (10 R27): 32 rows of 64 pixels, row first; `true` is on. -/
abbrev Framebuffer := Vector (Vector Bool 64) 32

/-- The whole state. The fields down to `faultInfo` are the spec's (10 R40); the others are the model's own, which the
fixed form of `exec` and `step` calls for (notes/assumptions/1.md to 5.md and 9.md). -/
structure State where
  /-- V0 to VF (10 R20, R21). -/
  v         : Vector Byte 16
  /-- I (10 R22). -/
  idx       : Word
  /-- PC (10 R23). -/
  pc        : Word
  /-- DT (10 R24). -/
  dt        : Byte
  /-- ST (10 R25). -/
  st        : Byte
  /-- STACK[0] to STACK[15] (10 R26). -/
  stack     : Vector Word 16
  /-- SP, the number of valid entries (10 R26). -/
  sp        : Fin 17
  /-- MEM (10 R28). -/
  mem       : Memory
  /-- FB (10 R27). -/
  fb        : Framebuffer
  /-- PHASE (10 R29). -/
  phase     : Phase
  /-- FAULT_CODE (10 R29). -/
  faultCode : FaultCode
  /-- FAULT_PC (10 R29). -/
  faultPc   : Word
  /-- FAULT_INSN (10 R29). -/
  faultInsn : Word
  /-- FAULT_INFO (10 R29). -/
  faultInfo : Word
  /-- MODEL: the behaviour parameters, which no step writes (00 R8, 10 R31). -/
  params    : Params
  /-- MODEL: the key snapshot of the STEP being executed, bit k for key k (10 R33). -/
  keys      : Word
  /-- MODEL: the random byte of the STEP being executed (10 R34). -/
  rnd       : Byte
  /-- MODEL: the result code of the last command, an output (10 R36, R38). -/
  result    : ResultCode
  /-- MODEL: the commands the host will present next, oldest first (10 R35). -/
  inbox     : List Command
  /-- MODEL: how many free values have been drawn. -/
  draws     : Nat
  deriving DecidableEq, Repr

/-- There is NO fault: no meaning and no command stops the model. A fatal condition is an entry the spec describes
(60 R213), so it is taken as a next state with PHASE = HALTED, and every register and memory byte holds a value. Nobody
raises it; safe. -/
inductive Fault where
  deriving DecidableEq, Repr

/-- Why `exec` could answer no meaning. -/
inductive Refusal where
  /-- Raised by an arm of `exec` for an instruction that has no meaning yet; safe. No arm raises it now. -/
  | notModelled (mnemonic : String)
  deriving DecidableEq, Repr

/-- The state right after RESET, under the default parameters (10 R39, 70 R250). The values of V, I, DT and ST are
those of `RESET_REGS = ZERO` (92 D4; notes/assumptions/6.md). -/
def State.reset : State where
  v         := Vector.replicate 16 0
  idx       := 0
  pc        := 0x200
  dt        := 0
  st        := 0
  stack     := Vector.replicate 16 0
  sp        := 0
  mem       := []
  fb        := Vector.replicate 32 (Vector.replicate 64 false)
  phase     := .empty
  faultCode := .none
  faultPc   := 0
  faultInsn := 0
  faultInfo := 0
  params    := defaultParams
  keys      := 0
  rnd       := 0
  result    := .ok
  inbox     := []
  draws     := 0

end Sys2Proof.Machine
end

