-- ==== Sys2Proof/Machine/Ops.lean ====
section
/-!
DEFINITION. The named operations: registers, memory, call stack, fetch, entering the fatal state, ending a step, the
sprite blit (spec 00 R11-R13, 20, 30 R70, 40 R91-R92, 43, 60 R213). There is no return from the fatal state: only RESET
leaves it (60 R214).
-/

namespace Sys2Proof.Machine

/-! ## Registers (10 R20, R21) -/

/-- `V[x]`. -/
def State.getV (s : State) (x : Reg) : Byte := s.v[x]

/-- `V[x] <- b`. -/
def State.setV (s : State) (x : Reg) (b : Byte) : State := { s with v := s.v.set x b }

/-- `VF` (10 R21). -/
abbrev vf : Reg := 15

/-! ## Memory (20 R50, R58-R60) -/

/-- `MEM[a]`: the listed byte, or 0. -/
def Memory.read : Memory → Nat → Byte
  | [], _ => 0#8
  | (a, b) :: m, k => if a = k then b else Memory.read m k

/-- `MEM[a] <- b`, keeping addresses rising and listing no 0. -/
def Memory.write : Memory → Nat → Byte → Memory
  | [], a, b => if b = 0#8 then [] else [(a, b)]
  | (a', b') :: m, a, b =>
    if a < a' then (if b = 0#8 then (a', b') :: m else (a, b) :: (a', b') :: m)
    else if a = a' then (if b = 0#8 then m else (a, b) :: m)
    else (a', b') :: Memory.write m a b

/-- The bytes `bs` written one by one from address `a` upward. -/
def Memory.writeBytes : Memory → Nat → List Byte → Memory
  | m, _, [] => m
  | m, a, b :: bs => Memory.writeBytes (Memory.write m a b) (a + 1) bs

/-- The canonical form from address `lo` upward: addresses strictly rising and below 4096, no byte 0. -/
def Memory.wfFrom : Nat → Memory → Bool
  | _, [] => true
  | lo, (a, b) :: m => decide (lo ≤ a) && decide (a < Config.memSize) && decide (b ≠ 0#8) && Memory.wfFrom (a + 1) m

/-- The one canonical form of a memory. -/
def Memory.wf (m : Memory) : Bool := Memory.wfFrom 0 m

/-! ## Data addresses (20 R55, R56) -/

/-- `I & 0xFFF`. -/
def State.base (s : State) : Word := s.idx &&& 0xFFF#16

/-- `EA(k) = (I & 0xFFF) + k`, a natural number that does not wrap (20 R55, R57). -/
def State.ea (s : State) (k : Nat) : Nat := s.base.toNat + k

/-- The range check of an access of `count` bytes: MEM_RANGE when the last one lies above 0xFFF; an access of no byte
passes (20 R56). -/
def rangeCheck (count : Nat) (s : State) : Option Fatal :=
  if count ≠ 0 ∧ s.ea (count - 1) > 0xFFF then some ⟨.memRange, s.base⟩ else none

/-! ## The fatal state and the end of a step (60 R213, 30 R82, R83) -/

/-- `raise Fatal(code, info)` in a command whose state before it is `s` and whose fetched word is `insn` (0 where none
was fetched): every write of the command is discarded, PHASE becomes HALTED and the fault registers are set
(60 R213). -/
def raiseFatal (f : Fatal) (insn : Word) (s : State) : State :=
  { s with
    phase := .halted, faultCode := f.code, faultPc := s.pc, faultInsn := insn, faultInfo := f.info, result := .fatal }

/-- The end of a step that does not fault: PC and the result OK. -/
def complete (target : Word) (s : State) : State := { s with pc := target, result := .ok }

/-- `trunc16(p + 2)`. -/
def State.pcNext (s : State) : Word := s.pc + 2#16

/-- PC after a conditional skip: `trunc16(p + 4)` if it is taken (40 R101). -/
def State.pcSkip (s : State) (taken : Bool) : Word := if taken then s.pc + 4#16 else s.pc + 2#16

/-- The atomic commit of an instruction with a check before its writes (30 R83): raise what the check raises, or
answer the new state. `s` is the state before the step. -/
def commitUnless (check : Option Fatal) (i : Instr) (s t : State) : Host.Outcome State Fault Refusal :=
  match check with
  | some f => .next (raiseFatal f (encode i) s)
  | none => .next t

/-! ## The call stack (40 R91, R92) -/

/-- `StackPush(a)` (40 R91). -/
def stackPush (a : Word) (s : State) : Except Fatal State :=
  if h : s.sp.val < 16 then
    .ok { s with stack := s.stack.set s.sp.val a h, sp := ⟨s.sp.val + 1, by omega⟩ }
  else .error ⟨.stackOverflow, a⟩

/-- `StackPop()`: the old top and the state without it; the entry keeps its value (40 R92). -/
def stackPop (s : State) : Except Fatal (Word × State) :=
  if h : s.sp.val = 0 then .error ⟨.stackUnderflow, 0#16⟩
  else .ok (s.stack[s.sp.val - 1]'(by omega), { s with sp := ⟨s.sp.val - 1, by omega⟩ })

/-! ## Fetch (30 R70, 20 R53, R54) -/

/-- The checks of a fetch, in their order: FETCH_ODD, FETCH_RANGE, FETCH_LOW. -/
def fetchCheck (s : State) : Option Fatal :=
  if s.pc.toNat % 2 = 1 ∧ s.params.oddPcPolicy = .fault then some ⟨.fetchOdd, s.pc⟩
  else if s.pc.toNat > 0xFFE then some ⟨.fetchRange, s.pc⟩
  else if s.pc.toNat < Config.entry ∧ s.params.lowExecPolicy = .fault then some ⟨.fetchLow, s.pc⟩
  else none

/-- The instruction at PC, once the checks have passed: the two bytes, big-endian, through the decoder. -/
def fetchInstr (s : State) : Instr :=
  decode s.params.decodeStrict (bigEndian (s.mem.read s.pc.toNat) (s.mem.read (s.pc.toNat + 1)))

/-! ## The framebuffer (43 R160-R167) -/

/-- The pixel at row `r mod 32`, column `c mod 64`. -/
def Framebuffer.pixel (fb : Framebuffer) (r c : Nat) : Bool :=
  (fb[r % 32]'(Nat.mod_lt _ (by decide)))[c % 64]'(Nat.mod_lt _ (by decide))

/-- XOR 1 into the pixel at row `r mod 32`, column `c mod 64`. -/
def Framebuffer.toggle (fb : Framebuffer) (r c : Nat) : Framebuffer :=
  fb.set (r % 32)
    ((fb[r % 32]'(Nat.mod_lt _ (by decide))).set (c % 64) (!Framebuffer.pixel fb r c) (Nat.mod_lt _ (by decide)))
    (Nat.mod_lt _ (by decide))

/-- A framebuffer with every pixel off (43 R161). -/
def Framebuffer.clear : Framebuffer := Vector.replicate 32 (Vector.replicate 64 false)

/-- Bit `7 - j` of a sprite row: the most significant bit has column offset 0 (43 R163). -/
def spriteBit (row : Byte) (j : Nat) : Bool := row.getLsbD (7 - j)

/-- One sprite bit drawn at row `r`, column `c`: a 0 changes nothing, a 1 toggles the pixel and ORs its old value into
the collision (43 R163, R164). -/
def blitBit (bit : Bool) (r c : Nat) (acc : Framebuffer × Bool) : Framebuffer × Bool :=
  if bit then (acc.1.toggle r c, acc.2 || acc.1.pixel r c) else acc

/-- One sprite row drawn at row `r` from column `c` on. -/
def blitRow (row : Byte) (r c : Nat) (acc : Framebuffer × Bool) : Framebuffer × Bool :=
  (List.range 8).foldl (fun a j => blitBit (spriteBit row j) r (c + j) a) acc

/-- The rows of a sprite, the first at row `r`, each from column `c` on (43 R165). -/
def blitSprite : List Byte → Nat → Nat → Framebuffer × Bool → Framebuffer × Bool
  | [], _, _, acc => acc
  | row :: rows, r, c, acc => blitSprite rows (r + 1) c (blitRow row r c acc)

/-- The `n` bytes of a sprite, from EA(0) upward (43 R162). -/
def State.spriteRows (s : State) (n : Nat) : List Byte := (List.range n).map fun r => s.mem.read (s.ea r)

end Sys2Proof.Machine
end

