-- ==== Sys2Proof/Machine/Commands.lean ====
section
/-!
DEFINITION. The host's commands but for the execution of a STEP's instruction (spec 10 R30, R35-R38; 60 R231, R232; 70
R250-R254), and what the host reads between commands (10 R36).
-/

namespace Sys2Proof.Machine

/-- Which commands a phase accepts (10 R30, R37; 60 R232; 70 R250); every other pair is refused. NONE is accepted in
RUNNING, as 95 RL-10 has it (notes/assumptions/11.md). -/
def accepts : Phase → Command → Bool
  | _, .reset => true
  | .empty, .load _ => true
  | .empty, .tick => true
  | .running, .step _ _ => true
  | .running, .tick => true
  | .running, .none => true
  | _, _ => false

/-- The command of the next transaction: the inbox's oldest, or, when it holds none, whatever the host sends
(notes/assumptions/2.md). -/
def takeCommand (s : State) : Command × State :=
  match s.inbox with
  | c :: rest => (c, { s with inbox := rest })
  | [] => (Config.hostCommand s.draws, { s with draws := s.draws + 1 })

/-- A refused command: no state changes, the result is REJECTED (10 R37). -/
def reject (s : State) : State := { s with result := .rejected }

/-- An accepted NONE: it changes nothing (10 R35). -/
def doNone (s : State) : State := { s with result := .ok }

/-- TICK (60 R231). -/
def doTick (s : State) : State :=
  { s with
    dt := if s.dt = 0#8 then s.dt else s.dt - 1#8
    st := if s.st = 0#8 then s.st else s.st - 1#8
    result := .ok }

/-- LOAD(bytes) (70 R253, R254): the font at 0x000, the program at 0x200, PHASE to RUNNING; or LOAD_SIZE, with nothing
written. -/
def doLoad (bytes : List Byte) (s : State) : State :=
  if bytes.length > Config.maxProgram then raiseFatal ⟨.loadSize, 0#16⟩ 0#16 s
  else
    { s with
      mem := (s.mem.writeBytes 0 s.params.font.toList).writeBytes Config.entry bytes
      phase := .running
      result := .ok }

/-- RESET (70 R250): every piece of the spec's state to its value of 10 R39; V, I, DT and ST by `RESET_REGS`. The
parameters, the inputs and the host's inbox are no state of the machine and stay (notes/assumptions/6.md). -/
def doReset (s : State) : State :=
  match s.params.resetRegs with
  | .zero =>
    { State.reset with
      params := s.params, keys := s.keys, rnd := s.rnd, inbox := s.inbox, draws := s.draws }
  | .arbitrary =>
    { State.reset with
      v := Config.resetV s.draws, idx := Config.resetI s.draws
      dt := Config.resetDt s.draws, st := Config.resetSt s.draws
      params := s.params, keys := s.keys, rnd := s.rnd, inbox := s.inbox, draws := s.draws + 1 }

/-- The inputs of a STEP, read only during it (10 R33, R34). -/
def latchInputs (keys : Word) (rnd : Byte) (s : State) : State := { s with keys := keys, rnd := rnd }

/-! ## What the host reads (10 R29, R36) -/

/-- `sound_active` (60 R236). -/
def State.soundActive (s : State) : Bool := s.st != 0#8

/-- `PHASE` as the host reads it (10 R29). -/
def phaseBits : Phase → BitVec 2
  | .empty => 0
  | .running => 1
  | .halted => 2

/-- `FAULT_CODE` as the host reads it (60 R211). -/
def faultBits : FaultCode → BitVec 4
  | .none => 0
  | .stackOverflow => 1
  | .stackUnderflow => 2
  | .memRange => 3
  | .fetchRange => 4
  | .fetchOdd => 5
  | .fetchLow => 6
  | .loadSize => 7

/-! ## Placing an instruction -/

/-- Whether a fetch at PC passes its checks. -/
def fetchable (s : State) : Bool := (fetchCheck s).isNone

/-- The state in which the next transaction is a STEP that fetches the bytes `bytes` at PC: RUNNING, as a LOAD leaves
it, the bytes stored, a STEP with the present inputs first in the inbox; PC moves to the entry point only where no fetch
can pass (notes/assumptions/1.md). -/
def placeInstruction (bytes : List Byte) (s : State) : State :=
  let pc := if fetchable s then s.pc else BitVec.ofNat 16 Config.entry
  { s with
    pc := pc
    mem := s.mem.writeBytes pc.toNat bytes
    phase := .running
    inbox := .step s.keys s.rnd :: s.inbox }

end Sys2Proof.Machine
end

