-- ==== Sys2Proof/Machine/Flags.lean ====
section
/-!
DEFINITION. The flag computations (spec 41 R117-R121, 43 R164) and the order in which a flag and a result are written
(41 R124). VF is the only flag (10 R21).
-/

namespace Sys2Proof.Machine

/-- A flag as VF holds it: 1 or 0. -/
def flagByte (flag : Bool) : Byte := if flag then 1#8 else 0#8

/-- Carry out of 8xy4: `a + b > 255` (41 R117). -/
def carryOut (a b : Byte) : Bool := decide (a.toNat + b.toNat > 255)

/-- No borrow of `a - b`: `a >= b` (41 R118, R120). -/
def noBorrow (a b : Byte) : Bool := decide (a.toNat ≥ b.toNat)

/-- The bit a right shift moves out, bit 0 (41 R119). -/
def shiftedOutRight (a : Byte) : Bool := a.getLsbD 0

/-- The bit a left shift moves out, bit 7 (41 R121). -/
def shiftedOutLeft (a : Byte) : Bool := a.getLsbD 7

/-- `WriteFlagAndDest(x, flag, res)`, the two writes in the order of `VF_ORDER`; only for x = 0xF does the order show
(41 R124). -/
def writeFlagAndDest (x : Reg) (flag : Bool) (res : Byte) (s : State) : State :=
  match s.params.vfOrder with
  | .destLast => (s.setV vf (flagByte flag)).setV x res
  | .flagLast => (s.setV x res).setV vf (flagByte flag)

end Sys2Proof.Machine
end

