-- ==== Sys2Proof/Machine/Operands.lean ====
section
/-!
DEFINITION. Operand forms beyond a plain register or immediate: jump targets, the shift source, the glyph address, the
decimal digits, the register block, the keys (spec 30 R73, 40 R100, 41 R119, 42 R142-R146, 44 R180, R184).
-/

namespace Sys2Proof.Machine

/-- `zext_16(nnn)` (30 R73). -/
def zextAddr (nnn : Addr) : Word := nnn.setWidth 16

/-- `zext_16(V[x])`. -/
def zextByte (b : Byte) : Word := b.setWidth 16

/-- The target of Bnnn, `trunc16(zext_16(nnn) + V[0])` (40 R100). -/
def jumpV0Target (nnn : Addr) (s : State) : Word := zextAddr nnn + zextByte (s.getV 0)

/-- The register value 8xy6 and 8xyE shift, by `SHIFT_SOURCE` (41 R119, R121). -/
def shiftOperand (x y : Reg) (s : State) : Byte :=
  match s.params.shiftSource with
  | .vx => s.getV x
  | .vy => s.getV y

/-- The address of the glyph of the low nibble, `FONT_BASE + GLYPH_BYTES * d` (42 R142). -/
def glyphAddress (b : Byte) : Word := BitVec.ofNat 16 (5 * (b.toNat % 16))

/-- Hundreds, tens and ones (42 R143). -/
def decimalDigits (b : Byte) : List Byte :=
  [BitVec.ofNat 8 (b.toNat / 100), BitVec.ofNat 8 (b.toNat / 10 % 10), BitVec.ofNat 8 (b.toNat % 10)]

/-- `V[0]` to `V[x]` (42 R144). -/
def registerBlock (x : Reg) (s : State) : List Byte := s.v.toList.take (x.val + 1)

/-- `V[0]` to `V[x]` replaced by `MEM[EA(0)]` to `MEM[EA(x)]` (42 R145). -/
def loadedRegisters (x : Reg) (s : State) : Vector Byte 16 :=
  Vector.ofFn fun i => if i ≤ x then s.mem.read (s.ea i.val) else s.getV i

/-- I after Fx55 or Fx65, by `LS_INCREMENT_I` (42 R144, R145). -/
def indexAfterBlock (x : Reg) (s : State) : Word :=
  match s.params.lsIncrementI with
  | .unchanged => s.idx
  | .xPlus1 => s.idx + BitVec.ofNat 16 (x.val + 1)

/-- `Pressed(v)` for the snapshot of this STEP (44 R180). -/
def State.pressed (s : State) (code : Byte) : Bool :=
  if code.toNat ≤ 0xF then s.keys.getLsbD code.toNat
  else match s.params.keyRangePolicy with
    | .notPressed => false
    | .lowNibble => s.keys.getLsbD (code.toNat % 16)

/-- The pressed keys of this STEP's snapshot, lowest first (44 R184). -/
def State.pressedKeys (s : State) : List Reg := (List.finRange 16).filter fun k => s.keys.getLsbD k.val

/-- `choose(P)`: none of no key, the one key, or a free choice among several (44 R184). -/
def chooseKey (draw : Nat) : List Reg → Option Reg
  | [] => none
  | [k] => some k
  | k :: k' :: ks => (k :: k' :: ks)[Config.keyChoice draw % (ks.length + 2)]?

end Sys2Proof.Machine
end

