-- ==== Sys2Proof/Machine/Alu.lean ====
section
/-!
DEFINITION. Register and arithmetic instructions (spec 41). All operands are read in the state before the step; none of
these instructions can fault.
-/

namespace Sys2Proof.Machine

/-- `V[x] <- b`, then PC to the next instruction: the end of an instruction whose only result is a register. -/
def finishV (x : Reg) (b : Byte) (s : State) : Host.Outcome State Fault Refusal :=
  .next (complete s.pcNext (s.setV x b))

/-- VF and V[x] written by 41 R124, then PC to the next instruction. -/
def finishFlag (x : Reg) (flag : Bool) (res : Byte) (s : State) : Host.Outcome State Fault Refusal :=
  .next (complete s.pcNext (writeFlagAndDest x flag res s))

/-- 6xkk, LD Vx, kk (41 R111). -/
def execLdImm (x : Reg) (kk : Byte) (s : State) : Host.Outcome State Fault Refusal := finishV x kk s

/-- 7xkk, ADD Vx, kk (41 R112): the carry is discarded. -/
def execAddImm (x : Reg) (kk : Byte) (s : State) : Host.Outcome State Fault Refusal := finishV x (s.getV x + kk) s

/-- 8xy0, LD Vx, Vy (41 R113). -/
def execLdReg (x y : Reg) (s : State) : Host.Outcome State Fault Refusal := finishV x (s.getV y) s

/-- 8xy1, OR Vx, Vy (41 R114). -/
def execOr (x y : Reg) (s : State) : Host.Outcome State Fault Refusal := finishV x (s.getV x ||| s.getV y) s

/-- 8xy2, AND Vx, Vy (41 R115). -/
def execAnd (x y : Reg) (s : State) : Host.Outcome State Fault Refusal := finishV x (s.getV x &&& s.getV y) s

/-- 8xy3, XOR Vx, Vy (41 R116). -/
def execXor (x y : Reg) (s : State) : Host.Outcome State Fault Refusal := finishV x (s.getV x ^^^ s.getV y) s

/-- 8xy4, ADD Vx, Vy (41 R117). -/
def execAddReg (x y : Reg) (s : State) : Host.Outcome State Fault Refusal :=
  finishFlag x (carryOut (s.getV x) (s.getV y)) (s.getV x + s.getV y) s

/-- 8xy5, SUB Vx, Vy (41 R118). -/
def execSub (x y : Reg) (s : State) : Host.Outcome State Fault Refusal :=
  finishFlag x (noBorrow (s.getV x) (s.getV y)) (s.getV x - s.getV y) s

/-- 8xy6, SHR Vx (41 R119). -/
def execShr (x y : Reg) (s : State) : Host.Outcome State Fault Refusal :=
  finishFlag x (shiftedOutRight (shiftOperand x y s)) (shiftOperand x y s >>> 1) s

/-- 8xy7, SUBN Vx, Vy (41 R120). -/
def execSubn (x y : Reg) (s : State) : Host.Outcome State Fault Refusal :=
  finishFlag x (noBorrow (s.getV y) (s.getV x)) (s.getV y - s.getV x) s

/-- 8xyE, SHL Vx (41 R121). -/
def execShl (x y : Reg) (s : State) : Host.Outcome State Fault Refusal :=
  finishFlag x (shiftedOutLeft (shiftOperand x y s)) (shiftOperand x y s <<< 1) s

/-- Cxkk, RND Vx, kk (41 R122): the random byte of this STEP, masked. -/
def execRnd (x : Reg) (kk : Byte) (s : State) : Host.Outcome State Fault Refusal := finishV x (s.rnd &&& kk) s

end Sys2Proof.Machine
end

