-- ==== Sys2Proof/Machine/Control.lean ====
section
/-!
DEFINITION. Control transfer and conditional skips (spec 40). No target is masked or checked here: the next fetch does
that (40 R90).
-/

namespace Sys2Proof.Machine

/-- 00EE, RET (40 R93): the nibble `x` is not examined. -/
def execRet (x : Nibble) (s : State) : Host.Outcome State Fault Refusal :=
  match stackPop s with
  | .error f => .next (raiseFatal f (encode (.ret x)) s)
  | .ok (target, t) => .next (complete target t)

/-- 1nnn, JP (40 R94). -/
def execJp (nnn : Addr) (s : State) : Host.Outcome State Fault Refusal :=
  .next (complete (zextAddr nnn) s)

/-- 2nnn, CALL (40 R95): pushes the address of the next instruction. -/
def execCall (nnn : Addr) (s : State) : Host.Outcome State Fault Refusal :=
  match stackPush s.pcNext s with
  | .error f => .next (raiseFatal f (encode (.call nnn)) s)
  | .ok t => .next (complete (zextAddr nnn) t)

/-- 3xkk, SE Vx, kk (40 R96). -/
def execSeImm (x : Reg) (kk : Byte) (s : State) : Host.Outcome State Fault Refusal :=
  .next (complete (s.pcSkip (s.getV x == kk)) s)

/-- 4xkk, SNE Vx, kk (40 R97). -/
def execSneImm (x : Reg) (kk : Byte) (s : State) : Host.Outcome State Fault Refusal :=
  .next (complete (s.pcSkip (s.getV x != kk)) s)

/-- 5xyn, SE Vx, Vy (40 R98): the nibble `n` is not examined. -/
def execSeReg (x y : Reg) (s : State) : Host.Outcome State Fault Refusal :=
  .next (complete (s.pcSkip (s.getV x == s.getV y)) s)

/-- 9xyn, SNE Vx, Vy (40 R99): the nibble `n` is not examined. -/
def execSneReg (x y : Reg) (s : State) : Host.Outcome State Fault Refusal :=
  .next (complete (s.pcSkip (s.getV x != s.getV y)) s)

/-- Bnnn, JP V0, nnn (40 R100). -/
def execJpV0 (nnn : Addr) (s : State) : Host.Outcome State Fault Refusal :=
  .next (complete (jumpV0Target nnn s) s)

end Sys2Proof.Machine
end

