-- ==== Sys2Proof/Machine/Default.lean ====
section
/-!
DEFINITION. The default arm: a word no row of the opcode table selects (spec 45).
-/

namespace Sys2Proof.Machine

/-- UNRECOGNIZED (45 R200): advances PC and does nothing else. -/
def execUnrecognized (s : State) : Host.Outcome State Fault Refusal := .next (complete s.pcNext s)

end Sys2Proof.Machine
end

