-- ==== Sys2Proof/Machine/Display.lean ====
section
/-!
DEFINITION. Display instructions (spec 43).
-/

namespace Sys2Proof.Machine

/-- 00E0, CLS (43 R161): the nibble `x` is not examined. -/
def execCls (s : State) : Host.Outcome State Fault Refusal :=
  .next (complete s.pcNext { s with fb := Framebuffer.clear })

/-- The framebuffer and the collision of Dxyn: the sprite's rows at row V[y], column V[x], drawn from no collision
(43 R163-R165). -/
def drawn (x y : Reg) (n : Nibble) (s : State) : Framebuffer × Bool :=
  blitSprite (s.spriteRows n.toNat) (s.getV y).toNat (s.getV x).toNat (s.fb, false)

/-- Dxyn, DRW Vx, Vy, n (43 R165): VF is written last, after it has served as a coordinate. -/
def execDrw (x y : Reg) (n : Nibble) (s : State) : Host.Outcome State Fault Refusal :=
  commitUnless (rangeCheck n.toNat s) (.drw x y n) s
    (complete s.pcNext ({ s with fb := (drawn x y n s).1 }.setV vf (flagByte (drawn x y n s).2)))

end Sys2Proof.Machine
end

