-- ==== Sys2Proof/Machine/Index.lean ====
section
/-!
DEFINITION. Index register and memory instructions (spec 42). The range check comes before any write (20 R56).
-/

namespace Sys2Proof.Machine

/-- `I <- w`, then PC to the next instruction. -/
def finishIndex (w : Word) (s : State) : Host.Outcome State Fault Refusal :=
  .next (complete s.pcNext { s with idx := w })

/-- Annn, LD I, nnn (42 R140). -/
def execLdI (nnn : Addr) (s : State) : Host.Outcome State Fault Refusal := finishIndex (zextAddr nnn) s

/-- Fx1E, ADD I, Vx (42 R141): 16-bit wrap, no flag. -/
def execAddI (x : Reg) (s : State) : Host.Outcome State Fault Refusal := finishIndex (s.idx + zextByte (s.getV x)) s

/-- Fx29, LD F, Vx (42 R142). -/
def execLdF (x : Reg) (s : State) : Host.Outcome State Fault Refusal := finishIndex (glyphAddress (s.getV x)) s

/-- Fx33, LD B, Vx (42 R143). -/
def execLdB (x : Reg) (s : State) : Host.Outcome State Fault Refusal :=
  commitUnless (rangeCheck 3 s) (.ldB x) s
    (complete s.pcNext { s with mem := s.mem.writeBytes (s.ea 0) (decimalDigits (s.getV x)) })

/-- Fx55, LD [I], Vx (42 R144). -/
def execLdMemVx (x : Reg) (s : State) : Host.Outcome State Fault Refusal :=
  commitUnless (rangeCheck (x.val + 1) s) (.ldMemVx x) s
    (complete s.pcNext
      { s with mem := s.mem.writeBytes (s.ea 0) (registerBlock x s), idx := indexAfterBlock x s })

/-- Fx65, LD Vx, [I] (42 R145). -/
def execLdVxMem (x : Reg) (s : State) : Host.Outcome State Fault Refusal :=
  commitUnless (rangeCheck (x.val + 1) s) (.ldVxMem x) s
    (complete s.pcNext { s with v := loadedRegisters x s, idx := indexAfterBlock x s })

end Sys2Proof.Machine
end

