-- ==== Sys2Proof/Machine/Input.lean ====
section
/-!
DEFINITION. Key input and timer instructions (spec 44). The directions of Fx07, Fx15 and Fx18 are 44 R187's, general
knowledge by 93 K3 (notes/assumptions/13.md).
-/

namespace Sys2Proof.Machine

/-- Ex9E, SKP Vx (44 R181). -/
def execSkp (x : Reg) (s : State) : Host.Outcome State Fault Refusal :=
  .next (complete (s.pcSkip (s.pressed (s.getV x))) s)

/-- ExA1, SKNP Vx (44 R182). -/
def execSknp (x : Reg) (s : State) : Host.Outcome State Fault Refusal :=
  .next (complete (s.pcSkip (!s.pressed (s.getV x))) s)

/-- Fx07, LD Vx, DT (44 R183). -/
def execLdVxDt (x : Reg) (s : State) : Host.Outcome State Fault Refusal :=
  .next (complete s.pcNext (s.setV x s.dt))

/-- Fx0A, LD Vx, K (44 R184): with no key pressed PC stays and the result is WAIT. Taking a key uses up a free value
(notes/assumptions/9.md). -/
def execLdVxK (x : Reg) (s : State) : Host.Outcome State Fault Refusal :=
  match chooseKey s.draws s.pressedKeys with
  | none => .next { s with result := .wait }
  | some k => .next (complete s.pcNext ({ s with draws := s.draws + 1 }.setV x (BitVec.ofNat 8 k.val)))

/-- Fx15, LD DT, Vx (44 R185). -/
def execLdDtVx (x : Reg) (s : State) : Host.Outcome State Fault Refusal :=
  .next (complete s.pcNext { s with dt := s.getV x })

/-- Fx18, LD ST, Vx (44 R186). -/
def execLdStVx (x : Reg) (s : State) : Host.Outcome State Fault Refusal :=
  .next (complete s.pcNext { s with st := s.getV x })

end Sys2Proof.Machine
end

