-- ==== Sys2Proof/Machine/Step.lean ====
section
/-!
DEFINITION. One step: one transaction of the host (spec 00 R6, 10 R35, 30 R81).
-/

namespace Sys2Proof.Machine

/-- `STEP(keys, rnd)` in RUNNING: fetch, decode, execute, or the fetch's fault with no word fetched (30 R81). -/
def stepInstr (keys : Word) (rnd : Byte) (s : State) : Host.Outcome State Fault Refusal :=
  match fetchCheck (latchInputs keys rnd s) with
  | some f => .next (raiseFatal f 0#16 (latchInputs keys rnd s))
  | none => exec (fetchInstr (latchInputs keys rnd s)) (latchInputs keys rnd s)

/-- An accepted command. -/
def runCommand (c : Command) (s : State) : Host.Outcome State Fault Refusal :=
  match c with
  | .reset => .next (doReset s)
  | .load bytes => .next (doLoad bytes s)
  | .step keys rnd => stepInstr keys rnd s
  | .tick => .next (doTick s)
  | .none => .next (doNone s)

/-- One transaction: take the host's command; run it if the phase accepts it, else refuse it. -/
def step (s : State) : Host.Outcome State Fault Refusal :=
  if accepts s.phase (takeCommand s).1 then runCommand (takeCommand s).1 (takeCommand s).2
  else .next (reject (takeCommand s).2)

/-- `s` with an instruction of the opcode table placed so that the next step is a STEP that fetches and runs it. -/
def State.withFetchWord (s : State) (nbits w : Nat) : State :=
  placeInstruction (wordBytes (BitVec.ofNat 16 (w % 2 ^ nbits))) s

end Sys2Proof.Machine
end

