-- ==== Sys2Proof/WellFormed.lean ====
section
/-!
DEFINITION. The instructions that stand for a word under a given `DECODE_STRICT` (spec 30 R74, R75, R79): every
operand of the right width is well-formed, but for the nibbles strict decoding requires to be 0 and for an UNRECOGNIZED
word that some row selects.
-/

namespace Sys2Proof

/-- Whether an instruction is one the decoder can answer with. -/
def wellFormed (strict : Bool) : Instr → Bool
  | .cls x => !strict || x == 0#4
  | .ret x => !strict || x == 0#4
  | .seReg _ _ n => !strict || n == 0#4
  | .sneReg _ _ n => !strict || n == 0#4
  | .unrecognized w => !recognized strict w
  | .jp _ => true
  | .call _ => true
  | .seImm _ _ => true
  | .sneImm _ _ => true
  | .ldImm _ _ => true
  | .addImm _ _ => true
  | .ldReg _ _ => true
  | .or _ _ => true
  | .and _ _ => true
  | .xor _ _ => true
  | .addReg _ _ => true
  | .sub _ _ => true
  | .shr _ _ => true
  | .subn _ _ => true
  | .shl _ _ => true
  | .ldI _ => true
  | .jpV0 _ => true
  | .rnd _ _ => true
  | .drw _ _ _ => true
  | .skp _ => true
  | .sknp _ => true
  | .ldVxDt _ => true
  | .ldVxK _ => true
  | .ldDtVx _ => true
  | .ldStVx _ => true
  | .addI _ => true
  | .ldF _ => true
  | .ldB _ => true
  | .ldMemVx _ => true
  | .ldVxMem _ => true

end Sys2Proof
end

