-- ==== Sys2Proof/Safety.lean ====
section
/-!
DEFINITION. The terms claims are stated in: the pieces of the spec's state and what a step leaves unchanged (00 R14),
the invariants of 10 R41, the end of a run (70 R265).
-/

namespace Sys2Proof.Machine

/-! ## Pieces of state and frames -/

/-- One piece of the spec's state (10 R40). -/
inductive Piece where
  | v (x : Reg)
  | idx
  | pc
  | dt
  | st
  | stack (j : Fin 16)
  | sp
  | mem (a : Nat)
  | pixel (r : Fin 32) (c : Fin 64)
  | phase
  | faultCode
  | faultPc
  | faultInsn
  | faultInfo
  deriving DecidableEq, Repr

/-- What a piece of state holds, as a number; a byte of memory is what a read of it gives. -/
def State.look (s : State) : Piece → Nat
  | .v x => (s.getV x).toNat
  | .idx => s.idx.toNat
  | .pc => s.pc.toNat
  | .dt => s.dt.toNat
  | .st => s.st.toNat
  | .stack j => s.stack[j].toNat
  | .sp => s.sp.val
  | .mem a => (s.mem.read a).toNat
  | .pixel r c => (s.fb.pixel r.val c.val).toNat
  | .phase => (phaseBits s.phase).toNat
  | .faultCode => (faultBits s.faultCode).toNat
  | .faultPc => s.faultPc.toNat
  | .faultInsn => s.faultInsn.toNat
  | .faultInfo => s.faultInfo.toNat

/-- The frame of a command that may write only the pieces `written` holds of: every other piece reads as before, and
so do the parameters and the host's inputs. -/
def FrameExcept (written : Piece → Prop) (s t : State) : Prop :=
  (∀ p, ¬ written p → t.look p = s.look p) ∧
    t.params = s.params ∧ t.keys = s.keys ∧ t.rnd = s.rnd ∧ t.inbox = s.inbox

/-- The five pieces a fatal condition writes (60 R213). -/
def FaultPiece (p : Piece) : Prop :=
  p ∈ [Piece.phase, .faultCode, .faultPc, .faultInsn, .faultInfo]

/-- `t` is `s` after `raise Fatal(code, info)` with the fetched word `insn`: HALTED, the fault registers set, the
result FATAL, and everything else as before (60 R213). -/
def RaisedFrom (s t : State) (code : FaultCode) (info insn : Word) : Prop :=
  t.phase = .halted ∧ t.faultCode = code ∧ t.faultPc = s.pc ∧ t.faultInsn = insn ∧ t.faultInfo = info ∧
    t.result = .fatal ∧ FrameExcept FaultPiece s t

/-- Two states that differ at most in the result of the last command and in what the host will send. -/
def SameButHost (s t : State) : Prop :=
  t = { s with result := t.result, inbox := t.inbox, draws := t.draws }

/-! ## Encodings -/

/-- Whatever `DECODE_STRICT` is, the word decodes to the instruction. -/
def Decodes (w : Word) (i : Instr) : Prop := ∀ strict, decode strict w = i

/-! ## Tables over all instructions -/

/-- Whether the `count` bytes from EA(0) on pass the end of memory, in the words of 20 R56. -/
def RunsPastMemory (s : State) (count : Nat) : Prop := s.idx.toNat % 4096 + (count - 1) > 0xFFF

/-- The fatal condition an instruction raises once fetched, with its code and FAULT_INFO (60 R211, R212); every
instruction not named raises none. -/
inductive Raises : Instr → State → FaultCode → Word → Prop where
  | ret (x : Nibble) (s : State) (h : s.sp = 0) : Raises (.ret x) s .stackUnderflow 0
  | call (nnn : Addr) (s : State) (h : s.sp = 16) : Raises (.call nnn) s .stackOverflow (s.pc + 2)
  | drw (x y : Reg) (n : Nibble) (s : State) (hn : n ≠ 0) (h : RunsPastMemory s n.toNat) :
      Raises (.drw x y n) s .memRange (s.idx &&& 0xFFF)
  | ldB (x : Reg) (s : State) (h : RunsPastMemory s 3) : Raises (.ldB x) s .memRange (s.idx &&& 0xFFF)
  | ldMemVx (x : Reg) (s : State) (h : RunsPastMemory s (x.val + 1)) :
      Raises (.ldMemVx x) s .memRange (s.idx &&& 0xFFF)
  | ldVxMem (x : Reg) (s : State) (h : RunsPastMemory s (x.val + 1)) :
      Raises (.ldVxMem x) s .memRange (s.idx &&& 0xFFF)

/-- PC after an instruction that does not fault (30 R82). -/
def pcAfter (i : Instr) (s : State) : Word :=
  match i with
  | .jp nnn => nnn.setWidth 16
  | .call nnn => nnn.setWidth 16
  | .ret _ => if h : s.sp.val = 0 then s.pc else s.stack[s.sp.val - 1]'(by omega)
  | .jpV0 nnn => BitVec.ofNat 16 (nnn.toNat + (s.getV 0).toNat)
  | .seImm x kk => if s.getV x = kk then s.pc + 4 else s.pc + 2
  | .sneImm x kk => if s.getV x ≠ kk then s.pc + 4 else s.pc + 2
  | .seReg x y _ => if s.getV x = s.getV y then s.pc + 4 else s.pc + 2
  | .sneReg x y _ => if s.getV x ≠ s.getV y then s.pc + 4 else s.pc + 2
  | .skp x => if s.pressed (s.getV x) = true then s.pc + 4 else s.pc + 2
  | .sknp x => if s.pressed (s.getV x) = false then s.pc + 4 else s.pc + 2
  | .ldVxK _ => if s.keys = 0 then s.pc else s.pc + 2
  | _ => s.pc + 2

/-- The pieces an instruction's rule writes when it does not fault (00 R14, R15). Under `LS_INCREMENT_I = X_PLUS_1`
Fx55 and Fx65 also write I. -/
def Written (i : Instr) (s : State) (p : Piece) : Prop :=
  match i with
  | .cls _ => p = .pc ∨ ∃ r c, p = .pixel r c
  | .ret _ => p = .pc ∨ p = .sp
  | .call _ => p = .pc ∨ p = .sp ∨ ∃ j : Fin 16, j.val = s.sp.val ∧ p = .stack j
  | .jp _ | .jpV0 _ | .seImm _ _ | .sneImm _ _ | .seReg _ _ _ | .sneReg _ _ _ | .skp _ | .sknp _
  | .unrecognized _ => p = .pc
  | .ldImm x _ | .addImm x _ | .ldReg x _ | .or x _ | .and x _ | .xor x _ | .rnd x _ | .ldVxDt x | .ldVxK x =>
    p = .pc ∨ p = .v x
  | .addReg x _ | .sub x _ | .shr x _ | .subn x _ | .shl x _ => p = .pc ∨ p = .v x ∨ p = .v 15
  | .ldI _ | .addI _ | .ldF _ => p = .pc ∨ p = .idx
  | .ldB _ => p = .pc ∨ ∃ k, k < 3 ∧ p = .mem (s.ea k)
  | .ldMemVx x =>
    p = .pc ∨ (s.params.lsIncrementI = .xPlus1 ∧ p = .idx) ∨ ∃ k, k ≤ x.val ∧ p = .mem (s.ea k)
  | .ldVxMem x =>
    p = .pc ∨ (s.params.lsIncrementI = .xPlus1 ∧ p = .idx) ∨ ∃ r : Reg, r ≤ x ∧ p = .v r
  | .drw _ _ _ => p = .pc ∨ p = .v 15 ∨ ∃ r c, p = .pixel r c
  | .ldDtVx _ => p = .pc ∨ p = .dt
  | .ldStVx _ => p = .pc ∨ p = .st

/-- Whether the sprite of `n` rows at EA(0), drawn by Dxyn, has a 1 bit that falls on the pixel in row `r`, column `c`:
bit `7 - j` of row `k` falls on row `(V[y] + k) mod 32`, column `(V[x] + j) mod 64` (43 R162, R163). -/
def SpriteCovers (s : State) (x y : Reg) (n : Nibble) (r : Fin 32) (c : Fin 64) : Prop :=
  ∃ k, k < n.toNat ∧ ∃ j, j < 8 ∧
    (s.mem.read (s.ea k)).getLsbD (7 - j) = true ∧
      r.val = ((s.getV y).toNat + k) % 32 ∧ c.val = ((s.getV x).toNat + j) % 64

/-- Two states that agree on everything but the stack entries at index SP and above (10 R26). -/
def AgreeOnLiveStack (s s' : State) : Prop :=
  s' = { s with stack := s'.stack } ∧ ∀ j : Fin 16, j.val < s.sp.val → s'.stack[j] = s.stack[j]

/-! ## Invariants (10 R41) -/

/-- Every valid stack entry is at most 0x1000 (10 R41 (b)). -/
def StackBounded (s : State) : Prop := ∀ j : Fin 16, j.val < s.sp.val → s.stack[j].toNat ≤ 0x1000

/-- PC never exceeds 0x10FE (10 R41 (c)). -/
def PcBounded (s : State) : Prop := s.pc.toNat ≤ 0x10FE

/-- FAULT_CODE is not 0 exactly when PHASE is HALTED (10 R29, R41 (d)). -/
def FaultCodeAgrees (s : State) : Prop := s.faultCode ≠ .none ↔ s.phase = .halted

/-- In EMPTY nothing has been loaded or run: memory is zero, the stack empty, the framebuffer off, PC at the entry
(10 R30, R39). -/
def EmptyIsBlank (s : State) : Prop :=
  s.phase = .empty →
    s.mem = [] ∧ s.sp = 0 ∧ s.pc = 0x200 ∧ s.fb = Framebuffer.clear ∧
      s.faultPc = 0 ∧ s.faultInsn = 0 ∧ s.faultInfo = 0

/-- Every valid stack entry is even: a CALL is fetched at an even PC unless `ODD_PC_POLICY = FETCH`. -/
def StackEven (s : State) : Prop :=
  s.params.oddPcPolicy = .fault → ∀ j : Fin 16, j.val < s.sp.val → s.stack[j].toNat % 2 = 0

/-- The invariants together, with the canonical form of memory. -/
structure Inv (s : State) : Prop where
  memory    : s.mem.wf = true
  stack     : StackBounded s
  stackEven : StackEven s
  pc        : PcBounded s
  fault     : FaultCodeAgrees s
  empty     : EmptyIsBlank s

/-! ## Runs -/

/-- A run has ended: HALTED, or RUNNING at a jump to itself (70 R265). That the jump's fetch passes its checks is the
model's addition to R265 (b): where it fails, the next STEP halts instead (DESIGN CHOICE, notes/assumptions/18.md). -/
def Ended (s : State) : Prop :=
  s.phase = .halted ∨
    (s.phase = .running ∧ fetchCheck s = none ∧
      ∃ nnn : Addr, fetchInstr s = .jp nnn ∧ zextAddr nnn = s.pc)

/-- No fatal condition has been raised. -/
def Safe (s : State) : Prop := s.phase ≠ .halted

end Sys2Proof.Machine
end

