-- ==== Sys2Proof/Certificates/Slice0/Obligations.lean ====
section
/-!
DEFINITION. The statements for the provers, from the spec's numbered rules. `s` is the state before a step, `t` the
state after it; `FrameExcept` says which pieces of state alone may have changed (spec 00 R14).
-/

open Sys2Proof Sys2Proof.Machine

/-! ## Encoding and decoding (30) -/

/-- Decoding the word of a well-formed instruction gives it back, with every operand at every value (30 R72-R80). -/
def Obligations.DecodeOfEncodeIsIdentity : Prop :=
  ∀ (strict : Bool) (i : Instr), wellFormed strict i = true → decode strict (encode i) = i

/-- Every word decodes to a well-formed instruction that encodes to that word, so no bit of it is dropped (30 R80). -/
def Obligations.EncodeOfDecodeIsIdentity : Prop :=
  ∀ (strict : Bool) (w : Word),
    encode (decode strict w) = w ∧ wellFormed strict (decode strict w) = true

/-- The class of a word is the row of opcode_table.json that selects it; no two rows select one word; UNRECOGNIZED is
taken only when no row does (30 R80). -/
def Obligations.DecodeFollowsOpcodeTable : Prop :=
  ∀ (strict : Bool) (w : Word),
    (∀ row ∈ opcodeRows, rowMatches strict w row = true → mnemonic (decode strict w) = row.mnemonic) ∧
    (∀ row ∈ opcodeRows, ∀ row' ∈ opcodeRows,
      rowMatches strict w row = true → rowMatches strict w row' = true → row = row') ∧
    (recognized strict w = false → decode strict w = .unrecognized w)

/-- The unrecognized words under `DECODE_STRICT = false` (30 R79). -/
def Obligations.UnrecognizedWordsAreTheListedOnes : Prop :=
  ∀ w : Word, decode false w = .unrecognized w ↔
    (familyOf w = 0x0 ∧ kkOf w ≠ 0xE0 ∧ kkOf w ≠ 0xEE) ∨
    (familyOf w = 0x8 ∧ nOf w ∈ [0x8#4, 0x9#4, 0xA#4, 0xB#4, 0xC#4, 0xD#4, 0xF#4]) ∨
    (familyOf w = 0xE ∧ kkOf w ≠ 0x9E ∧ kkOf w ≠ 0xA1) ∨
    (familyOf w = 0xF ∧
      kkOf w ∉ [0x07#8, 0x0A#8, 0x15#8, 0x18#8, 0x1E#8, 0x29#8, 0x33#8, 0x55#8, 0x65#8])

/-- `DECODE_STRICT = true` makes 00E0 and 00EE with a non-zero x, and 5xy_ and 9xy_ with a non-zero n, unrecognized, and
changes no other word (30 R74, R75). -/
def Obligations.StrictDecodingOnlyAddsZeroChecks : Prop :=
  ∀ w : Word,
    (familyOf w = 0x0 ∧ xNibble w ≠ 0 → decode true w = .unrecognized w) ∧
    ((familyOf w = 0x5 ∨ familyOf w = 0x9) ∧ nOf w ≠ 0 → decode true w = .unrecognized w) ∧
    (¬ (familyOf w = 0x0 ∧ xNibble w ≠ 0) → ¬ ((familyOf w = 0x5 ∨ familyOf w = 0x9) ∧ nOf w ≠ 0) →
      decode true w = decode false w)

/-- A few words of the spec and the instructions they stand for. -/
def Obligations.SpecWordsDecode : Prop :=
  decode false 0x8124 = .addReg 1 2 ∧ decode false 0x00EE = .ret 0 ∧ decode false 0x1ABC = .jp 0xABC ∧
    decode false 0x6A9D = .ldImm 10 0x9D ∧ decode false 0xFA33 = .ldB 10 ∧ decode false 0xD012 = .drw 0 1 2 ∧
    decode false 0xE59E = .skp 5 ∧ decode false 0xA300 = .ldI 0x300 ∧ decode false 0x8128 = .unrecognized 0x8128

/-! ## Fetch, step and commands (30 R70, R81; 10 R30, R37; 60 R214) -/

/-- A STEP in RUNNING whose fetch passes its checks is `exec` of the instruction that the two bytes at PC decode to, in
the state with the command taken and its inputs latched (30 R81; the latching is the model's, log 3). -/
def Obligations.StepRunsTheFetchedInstruction : Prop :=
  ∀ (s : State) (keys : Word) (rnd : Byte) (rest : List Command),
    s.phase = .running → s.inbox = .step keys rnd :: rest → fetchCheck s = none →
      step s =
        exec (decode s.params.decodeStrict (bigEndian (s.mem.read s.pc.toNat) (s.mem.read (s.pc.toNat + 1))))
          { s with inbox := rest, keys := keys, rnd := rnd }

/-- The checks of a fetch in their order, and what the first that fails raises; when none fails, the instruction of the
big-endian word runs (30 R70). -/
def Obligations.FetchChecksInOrder : Prop :=
  ∀ (s : State) (keys : Word) (rnd : Byte) (rest : List Command),
    s.phase = .running → s.inbox = .step keys rnd :: rest →
      let u : State := { s with inbox := rest, keys := keys, rnd := rnd }
      if s.pc.toNat % 2 = 1 ∧ s.params.oddPcPolicy = .fault then
        ∃ t, step s = .next t ∧ RaisedFrom u t .fetchOdd s.pc 0
      else if s.pc.toNat > 0xFFE then ∃ t, step s = .next t ∧ RaisedFrom u t .fetchRange s.pc 0
      else if s.pc.toNat < 0x200 ∧ s.params.lowExecPolicy = .fault then
        ∃ t, step s = .next t ∧ RaisedFrom u t .fetchLow s.pc 0
      else ∃ w : Word,
        w.toNat = (s.mem.read s.pc.toNat).toNat * 256 + (s.mem.read (s.pc.toNat + 1)).toNat ∧
          step s = exec (decode s.params.decodeStrict w) u

/-- A command its phase does not accept changes no state and reports REJECTED (10 R30, R37): STEP and NONE outside
RUNNING, LOAD outside EMPTY, TICK in HALTED. That NONE is accepted in RUNNING is log 11. -/
def Obligations.RefusedCommandChangesNothing : Prop :=
  ∀ (s : State) (c : Command) (rest : List Command), s.inbox = c :: rest →
    ((∃ keys rnd, c = .step keys rnd) ∧ s.phase ≠ .running ∨ c = .none ∧ s.phase ≠ .running ∨
      (∃ bytes, c = .load bytes) ∧ s.phase ≠ .empty ∨ c = .tick ∧ s.phase = .halted) →
    step s = .next { s with inbox := rest, result := .rejected }

/-- HALTED is final until RESET: every other command is refused and leaves the state, the fault registers included, as
it is; RESET leads to EMPTY (60 R214). That NONE too is refused there rests on 10 R37 as log 11 reads it. -/
def Obligations.HaltedIsFinalUntilReset : Prop :=
  ∀ (s : State) (c : Command) (rest : List Command), s.phase = .halted → s.inbox = c :: rest →
    ∃ t, step s = .next t ∧ (c ≠ .reset → SameButHost s t ∧ t.result = .rejected) ∧
      (c = .reset → t.phase = .empty)

/-- The transitions between the phases (10 R30). -/
def Obligations.PhaseTransitions : Prop :=
  ∀ (s : State) (c : Command) (rest : List Command), s.inbox = c :: rest →
    ∃ t, step s = .next t ∧
      t.phase =
        match c, s.phase with
        | .reset, _ => .empty
        | .load bytes, .empty => if bytes.length > 3584 then .halted else .running
        | .step _ _, .running => if t.result = .fatal then .halted else .running
        | _, p => p

/-! ## Fatal conditions (60) -/

/-- A fatal instruction leaves exactly the state before it, but for PHASE and the fault registers, with PC, the fetched
word and a code recorded (60 R213, R216). -/
def Obligations.FaultsArePrecise : Prop :=
  ∀ (i : Instr) (s t : State), exec i s = .next t → t.result = .fatal →
    ∃ code info, code ≠ .none ∧ RaisedFrom s t code info (encode i)

/-- Once fetched, only 2nnn, 00EE, Dxyn with n > 0, Fx33, Fx55 and Fx65 can fault, under the conditions and with the
codes and FAULT_INFO of 60 R211; every other instruction ends with a result other than FATAL (60 R212). -/
def Obligations.OnlyTheseInstructionsFault : Prop :=
  ∀ (i : Instr) (s : State),
    ∃ t, exec i s = .next t ∧
      (∀ code info, Raises i s code info → RaisedFrom s t code info (encode i)) ∧
      ((¬ ∃ code info, Raises i s code info) → t.result ≠ .fatal)

/-! ## Rules over all instructions (00 R14, 30 R82, 60 R218) -/

/-- PC after every instruction that does not fault (30 R82). -/
def Obligations.PcAfterEveryInstruction : Prop :=
  ∀ (i : Instr) (s t : State), exec i s = .next t → t.result ≠ .fatal → t.pc = pcAfter i s

/-- An instruction changes only what its rule writes; one that faults writes only PHASE and the fault registers
(00 R14). -/
def Obligations.InstructionsWriteOnlyTheirPieces : Prop :=
  ∀ (i : Instr) (s t : State), exec i s = .next t →
    (t.result ≠ .fatal → FrameExcept (Written i s) s t) ∧ (t.result = .fatal → FrameExcept FaultPiece s t)

/-- The key snapshot is seen only through Ex9E, ExA1 and Fx0A (60 R218): another snapshot changes the step of no other
instruction. -/
def Obligations.KeysSeenOnlyByKeyInstructions : Prop :=
  ∀ (i : Instr) (s t : State) (keys : Word), exec i s = .next t →
    (∀ x, i ≠ .skp x) → (∀ x, i ≠ .sknp x) → (∀ x, i ≠ .ldVxK x) →
      exec i { s with keys := keys } = .next { t with keys := keys }

/-- The random byte is seen only through Cxkk (10 R34). -/
def Obligations.RandomByteSeenOnlyByRnd : Prop :=
  ∀ (i : Instr) (s t : State) (rnd : Byte), exec i s = .next t → (∀ x kk, i ≠ .rnd x kk) →
    exec i { s with rnd := rnd } = .next { t with rnd := rnd }

/-- No instruction can observe a stack entry at index SP or above: two states that differ only there take steps to
states that differ only there (10 R26). -/
def Obligations.DeadStackEntriesUnobservable : Prop :=
  ∀ (i : Instr) (s s' t : State), AgreeOnLiveStack s s' → exec i s = .next t →
    ∃ t', exec i s' = .next t' ∧ AgreeOnLiveStack t t'

/-- A word no row of the opcode table selects is UNRECOGNIZED: it advances PC by 2 and does nothing else (45 R200). -/
def Obligations.UnrecognizedOnlyAdvancesPc : Prop :=
  ∀ (w : Word) (s : State),
    (∀ strict, recognized strict w = false → decode strict w = .unrecognized w) ∧
    ∃ t, exec (.unrecognized w) s = .next t ∧ t.pc = s.pc + 2 ∧ t.result = .ok ∧ FrameExcept (· = .pc) s t

/-! ## Control transfer (40) -/

/-- 00EE pops its target and adds nothing to it; with an empty stack it raises STACK_UNDERFLOW (40 R93). -/
def Obligations.ReturnPopsOrUnderflows : Prop :=
  ∀ (x : Nibble) (s : State),
    (∀ strict, strict = false ∨ x = 0 → decode strict (wordXkk 0x0 x 0xEE) = .ret x) ∧
    (∀ h : s.sp.val ≠ 0, ∃ t, exec (.ret x) s = .next t ∧ t.pc = s.stack[s.sp.val - 1]'(by omega) ∧
      t.sp.val = s.sp.val - 1 ∧ t.result = .ok ∧ FrameExcept (· ∈ [.pc, .sp]) s t) ∧
    (s.sp = 0 → ∃ t, exec (.ret x) s = .next t ∧ RaisedFrom s t .stackUnderflow 0 (encode (.ret x)))

/-- 1nnn sets PC to the zero-extended address and changes no other register (40 R94). -/
def Obligations.JumpSetsOnlyPc : Prop :=
  ∀ (nnn : Addr) (s : State),
    Decodes (wordNnn 0x1 nnn) (.jp nnn) ∧
    ∃ t, exec (.jp nnn) s = .next t ∧ t.pc.toNat = nnn.toNat ∧ t.result = .ok ∧ FrameExcept (· = .pc) s t

/-- 2nnn pushes p + 2 and jumps; with 16 entries on the stack it raises STACK_OVERFLOW with the return address as
FAULT_INFO (40 R95). -/
def Obligations.CallPushesOrOverflows : Prop :=
  ∀ (nnn : Addr) (s : State),
    Decodes (wordNnn 0x2 nnn) (.call nnn) ∧
    (∀ h : s.sp.val < 16, ∃ t, exec (.call nnn) s = .next t ∧ t.pc.toNat = nnn.toNat ∧
      t.sp.val = s.sp.val + 1 ∧ t.stack[s.sp.val] = s.pc + 2 ∧ t.result = .ok ∧
      FrameExcept (· ∈ [.pc, .sp, .stack ⟨s.sp.val, h⟩]) s t) ∧
    (s.sp = 16 → ∃ t, exec (.call nnn) s = .next t ∧ RaisedFrom s t .stackOverflow (s.pc + 2) (encode (.call nnn)))

/-- A return undoes a call: from any state whose call stack is the one the call left, it goes to the instruction after
the call and leaves the valid entries as they were before it (40 R93, R95). -/
def Obligations.ReturnUndoesCall : Prop :=
  ∀ (nnn : Addr) (x : Nibble) (s u : State), s.sp.val < 16 →
    ∃ t, exec (.call nnn) s = .next t ∧
      (u.sp = t.sp → u.stack = t.stack →
        ∃ u', exec (.ret x) u = .next u' ∧ u'.pc = s.pc + 2 ∧ u'.sp = s.sp ∧
          ∀ j : Fin 16, j.val < s.sp.val → u'.stack[j] = s.stack[j])

/-- 3xkk and 4xkk skip one instruction when V[x] is, or is not, kk (40 R96, R97). -/
def Obligations.SkipsOnImmediate : Prop :=
  ∀ (x : Reg) (kk : Byte) (s : State),
    Decodes (wordXkk 0x3 (regNibble x) kk) (.seImm x kk) ∧ Decodes (wordXkk 0x4 (regNibble x) kk) (.sneImm x kk) ∧
    (∃ t, exec (.seImm x kk) s = .next t ∧ t.pc = (if s.getV x = kk then s.pc + 4 else s.pc + 2) ∧
      t.result = .ok ∧ FrameExcept (· = .pc) s t) ∧
    (∃ t, exec (.sneImm x kk) s = .next t ∧ t.pc = (if s.getV x = kk then s.pc + 2 else s.pc + 4) ∧
      t.result = .ok ∧ FrameExcept (· = .pc) s t)

/-- 5xy_ and 9xy_ skip one instruction when V[x] is, or is not, V[y], whatever n is; with n not 0 their words are
unrecognized under `DECODE_STRICT = true` (40 R98, R99). -/
def Obligations.SkipsOnRegister : Prop :=
  ∀ (x y : Reg) (n : Nibble) (s : State),
    (∃ t, exec (.seReg x y n) s = .next t ∧ t.pc = (if s.getV x = s.getV y then s.pc + 4 else s.pc + 2) ∧
      t.result = .ok ∧ FrameExcept (· = .pc) s t) ∧
    (∃ t, exec (.sneReg x y n) s = .next t ∧ t.pc = (if s.getV x = s.getV y then s.pc + 2 else s.pc + 4) ∧
      t.result = .ok ∧ FrameExcept (· = .pc) s t) ∧
    (∀ strict, strict = false ∨ n = 0 →
      decode strict (wordXyn 0x5 (regNibble x) (regNibble y) n) = .seReg x y n ∧
      decode strict (wordXyn 0x9 (regNibble x) (regNibble y) n) = .sneReg x y n) ∧
    (n ≠ 0 →
      decode true (wordXyn 0x5 (regNibble x) (regNibble y) n) = .unrecognized (wordXyn 0x5 (regNibble x) (regNibble y) n) ∧
      decode true (wordXyn 0x9 (regNibble x) (regNibble y) n) = .unrecognized (wordXyn 0x9 (regNibble x) (regNibble y) n))

/-- Bnnn jumps to nnn + V[0], a sum that never wraps and is not masked (40 R100). -/
def Obligations.JumpWithOffsetAddsV0 : Prop :=
  ∀ (nnn : Addr) (s : State),
    Decodes (wordNnn 0xB nnn) (.jpV0 nnn) ∧
    ∃ t, exec (.jpV0 nnn) s = .next t ∧ t.pc.toNat = nnn.toNat + (s.getV 0).toNat ∧ t.pc.toNat ≤ 0x10FE ∧
      t.result = .ok ∧ FrameExcept (· = .pc) s t

/-! ## Registers and arithmetic (41) -/

/-- 6xkk and 8xy0 write V[x] and nothing but PC beside it (41 R111, R113). -/
def Obligations.LoadsOfRegisters : Prop :=
  ∀ (x y : Reg) (kk : Byte) (s : State),
    Decodes (wordXkk 0x6 (regNibble x) kk) (.ldImm x kk) ∧
    Decodes (wordXyn 0x8 (regNibble x) (regNibble y) 0x0) (.ldReg x y) ∧
    (∃ t, exec (.ldImm x kk) s = .next t ∧ t.getV x = kk ∧ t.pc = s.pc + 2 ∧ t.result = .ok ∧
      FrameExcept (· ∈ [.pc, .v x]) s t) ∧
    (∃ t, exec (.ldReg x y) s = .next t ∧ t.getV x = s.getV y ∧ t.pc = s.pc + 2 ∧ t.result = .ok ∧
      FrameExcept (· ∈ [.pc, .v x]) s t)

/-- 7xkk adds modulo 256 and writes no flag: VF changes only as the destination (41 R112). -/
def Obligations.AddImmediateWrapsWithoutFlag : Prop :=
  ∀ (x : Reg) (kk : Byte) (s : State),
    Decodes (wordXkk 0x7 (regNibble x) kk) (.addImm x kk) ∧
    ∃ t, exec (.addImm x kk) s = .next t ∧ (t.getV x).toNat = ((s.getV x).toNat + kk.toNat) % 256 ∧
      (x ≠ 15 → t.getV 15 = s.getV 15) ∧ t.pc = s.pc + 2 ∧ t.result = .ok ∧ FrameExcept (· ∈ [.pc, .v x]) s t

/-- 8xy1, 8xy2 and 8xy3 combine V[x] and V[y] bit by bit and leave VF alone (41 R114, R115, R116). -/
def Obligations.LogicOperations : Prop :=
  ∀ (x y : Reg) (s : State),
    Decodes (wordXyn 0x8 (regNibble x) (regNibble y) 0x1) (.or x y) ∧
    Decodes (wordXyn 0x8 (regNibble x) (regNibble y) 0x2) (.and x y) ∧
    Decodes (wordXyn 0x8 (regNibble x) (regNibble y) 0x3) (.xor x y) ∧
    (∃ t, exec (.or x y) s = .next t ∧
      (∀ k, k < 8 → (t.getV x).getLsbD k = ((s.getV x).getLsbD k || (s.getV y).getLsbD k)) ∧
      t.pc = s.pc + 2 ∧ t.result = .ok ∧ FrameExcept (· ∈ [.pc, .v x]) s t) ∧
    (∃ t, exec (.and x y) s = .next t ∧
      (∀ k, k < 8 → (t.getV x).getLsbD k = ((s.getV x).getLsbD k && (s.getV y).getLsbD k)) ∧
      t.pc = s.pc + 2 ∧ t.result = .ok ∧ FrameExcept (· ∈ [.pc, .v x]) s t) ∧
    (∃ t, exec (.xor x y) s = .next t ∧
      (∀ k, k < 8 → (t.getV x).getLsbD k = ((s.getV x).getLsbD k ^^ (s.getV y).getLsbD k)) ∧
      t.pc = s.pc + 2 ∧ t.result = .ok ∧ FrameExcept (· ∈ [.pc, .v x]) s t)

/-- 8xy4: the sum modulo 256 and the carry, 1 iff the sum is above 255; for x = 0xF the result survives under
DEST_LAST and the flag under FLAG_LAST (41 R117). -/
def Obligations.AddSetsCarry : Prop :=
  ∀ (x y : Reg) (s : State),
    let sum := (s.getV x).toNat + (s.getV y).toNat
    Decodes (wordXyn 0x8 (regNibble x) (regNibble y) 0x4) (.addReg x y) ∧
    ∃ t, exec (.addReg x y) s = .next t ∧
      (x ≠ 15 ∨ s.params.vfOrder = .destLast → (t.getV x).toNat = sum % 256) ∧
      (x ≠ 15 ∨ s.params.vfOrder = .flagLast → (t.getV 15).toNat = if sum > 255 then 1 else 0) ∧
      t.pc = s.pc + 2 ∧ t.result = .ok ∧ FrameExcept (· ∈ [.pc, .v x, .v 15]) s t

/-- 8xy5 and 8xy7: the difference modulo 256 and the flag "no borrow", from the values before the step; for x = 0xF
`VF_ORDER` decides (41 R118, R120). -/
def Obligations.SubtractSetsNoBorrow : Prop :=
  ∀ (x y : Reg) (s : State),
    let a := (s.getV x).toNat
    let b := (s.getV y).toNat
    Decodes (wordXyn 0x8 (regNibble x) (regNibble y) 0x5) (.sub x y) ∧
    Decodes (wordXyn 0x8 (regNibble x) (regNibble y) 0x7) (.subn x y) ∧
    (∃ t, exec (.sub x y) s = .next t ∧
      (x ≠ 15 ∨ s.params.vfOrder = .destLast → ((t.getV x).toNat : Int) = ((a : Int) - b) % 256) ∧
      (x ≠ 15 ∨ s.params.vfOrder = .flagLast → (t.getV 15).toNat = if a ≥ b then 1 else 0) ∧
      t.pc = s.pc + 2 ∧ t.result = .ok ∧ FrameExcept (· ∈ [.pc, .v x, .v 15]) s t) ∧
    (∃ t, exec (.subn x y) s = .next t ∧
      (x ≠ 15 ∨ s.params.vfOrder = .destLast → ((t.getV x).toNat : Int) = ((b : Int) - a) % 256) ∧
      (x ≠ 15 ∨ s.params.vfOrder = .flagLast → (t.getV 15).toNat = if b ≥ a then 1 else 0) ∧
      t.pc = s.pc + 2 ∧ t.result = .ok ∧ FrameExcept (· ∈ [.pc, .v x, .v 15]) s t)

/-- 8xy6 and 8xyE shift by one the register `SHIFT_SOURCE` names, V[x] or V[y], and VF takes the bit shifted out; for
x = 0xF `VF_ORDER` decides (41 R119, R121). -/
def Obligations.ShiftsTakeBitShiftedOut : Prop :=
  ∀ (x y : Reg) (s : State),
    let a := (s.getV (if s.params.shiftSource = .vx then x else y)).toNat
    Decodes (wordXyn 0x8 (regNibble x) (regNibble y) 0x6) (.shr x y) ∧
    Decodes (wordXyn 0x8 (regNibble x) (regNibble y) 0xE) (.shl x y) ∧
    (∃ t, exec (.shr x y) s = .next t ∧
      (x ≠ 15 ∨ s.params.vfOrder = .destLast → (t.getV x).toNat = a / 2) ∧
      (x ≠ 15 ∨ s.params.vfOrder = .flagLast → (t.getV 15).toNat = a % 2) ∧
      t.pc = s.pc + 2 ∧ t.result = .ok ∧ FrameExcept (· ∈ [.pc, .v x, .v 15]) s t) ∧
    (∃ t, exec (.shl x y) s = .next t ∧
      (x ≠ 15 ∨ s.params.vfOrder = .destLast → (t.getV x).toNat = 2 * a % 256) ∧
      (x ≠ 15 ∨ s.params.vfOrder = .flagLast → (t.getV 15).toNat = a / 128) ∧
      t.pc = s.pc + 2 ∧ t.result = .ok ∧ FrameExcept (· ∈ [.pc, .v x, .v 15]) s t)

/-- `WriteFlagAndDest`: for x other than 0xF both orders give one state, with the flag in VF and the result in V[x];
for x = 0xF only the write `VF_ORDER` puts last survives (41 R124). -/
def Obligations.FlagAndResultWriteOrder : Prop :=
  ∀ (x : Reg) (flag : Bool) (res : Byte) (s : State),
    let t := writeFlagAndDest x flag res s
    (x ≠ 15 → t.getV 15 = flagByte flag ∧ t.getV x = res) ∧
    (s.params.vfOrder = .destLast → t.getV x = res) ∧
    (s.params.vfOrder = .flagLast → t.getV 15 = flagByte flag) ∧
    (∀ order, x ≠ 15 → (writeFlagAndDest x flag res
        { s with params := { s.params with vfOrder := order } }).v = t.v) ∧
    FrameExcept (· ∈ [.v x, .v 15]) s t

/-- Cxkk: V[x] is the step's random byte masked with kk, whatever that byte is (41 R122). -/
def Obligations.RandomIsMasked : Prop :=
  ∀ (x : Reg) (kk : Byte) (s : State),
    Decodes (wordXkk 0xC (regNibble x) kk) (.rnd x kk) ∧
    ∃ t, exec (.rnd x kk) s = .next t ∧
      (∀ k, k < 8 → (t.getV x).getLsbD k = (s.rnd.getLsbD k && kk.getLsbD k)) ∧
      t.pc = s.pc + 2 ∧ t.result = .ok ∧ FrameExcept (· ∈ [.pc, .v x]) s t

/-! ## Index register and memory (42, 20) -/

/-- Annn, Fx1E and Fx29 write I: the address, the 16-bit sum, the address of the low nibble's glyph; none writes a flag
(42 R140, R141, R142). -/
def Obligations.IndexInstructions : Prop :=
  ∀ (nnn : Addr) (x : Reg) (s : State),
    Decodes (wordNnn 0xA nnn) (.ldI nnn) ∧ Decodes (wordXkk 0xF (regNibble x) 0x1E) (.addI x) ∧
    Decodes (wordXkk 0xF (regNibble x) 0x29) (.ldF x) ∧
    (∃ t, exec (.ldI nnn) s = .next t ∧ t.idx.toNat = nnn.toNat ∧
      t.pc = s.pc + 2 ∧ t.result = .ok ∧ FrameExcept (· ∈ [.pc, .idx]) s t) ∧
    (∃ t, exec (.addI x) s = .next t ∧ t.idx.toNat = (s.idx.toNat + (s.getV x).toNat) % 65536 ∧
      t.pc = s.pc + 2 ∧ t.result = .ok ∧ FrameExcept (· ∈ [.pc, .idx]) s t) ∧
    (∃ t, exec (.ldF x) s = .next t ∧ t.idx.toNat = 5 * ((s.getV x).toNat % 16) ∧
      t.pc = s.pc + 2 ∧ t.result = .ok ∧ FrameExcept (· ∈ [.pc, .idx]) s t)

/-- Fx33 stores hundreds, tens and ones at EA(0), EA(1), EA(2), and every other byte stays; past 0xFFF it raises
MEM_RANGE and writes nothing (42 R143). -/
def Obligations.DecimalStore : Prop :=
  ∀ (x : Reg) (s : State), s.mem.wf = true →
    let v := (s.getV x).toNat
    Decodes (wordXkk 0xF (regNibble x) 0x33) (.ldB x) ∧
    (s.idx.toNat % 4096 ≤ 0xFFD →
      ∃ t, exec (.ldB x) s = .next t ∧ (t.mem.read (s.ea 0)).toNat = v / 100 ∧
        (t.mem.read (s.ea 1)).toNat = v / 10 % 10 ∧ (t.mem.read (s.ea 2)).toNat = v % 10 ∧
        t.pc = s.pc + 2 ∧ t.result = .ok ∧
        FrameExcept (· ∈ [.pc, .mem (s.ea 0), .mem (s.ea 1), .mem (s.ea 2)]) s t) ∧
    (s.idx.toNat % 4096 > 0xFFD →
      ∃ t, exec (.ldB x) s = .next t ∧ RaisedFrom s t .memRange (s.idx &&& 0xFFF) (encode (.ldB x)))

/-- Fx55 stores V[0] to V[x] at EA(0) to EA(x), and every other byte stays; I moves only under X_PLUS_1; past 0xFFF it
raises MEM_RANGE and writes nothing (42 R144). -/
def Obligations.RegisterStore : Prop :=
  ∀ (x : Reg) (s : State), s.mem.wf = true →
    Decodes (wordXkk 0xF (regNibble x) 0x55) (.ldMemVx x) ∧
    (s.idx.toNat % 4096 + x.val ≤ 0xFFF →
      ∃ t, exec (.ldMemVx x) s = .next t ∧ (∀ k : Reg, k ≤ x → t.mem.read (s.ea k.val) = s.getV k) ∧
        t.idx.toNat = (match s.params.lsIncrementI with
          | .unchanged => s.idx.toNat
          | .xPlus1 => (s.idx.toNat + x.val + 1) % 65536) ∧
        t.pc = s.pc + 2 ∧ t.result = .ok ∧
        FrameExcept (fun p => p = .pc ∨ p = .idx ∨ ∃ k, k ≤ x.val ∧ p = .mem (s.ea k)) s t) ∧
    (s.idx.toNat % 4096 + x.val > 0xFFF →
      ∃ t, exec (.ldMemVx x) s = .next t ∧ RaisedFrom s t .memRange (s.idx &&& 0xFFF) (encode (.ldMemVx x)))

/-- Fx65 loads V[0] to V[x] from EA(0) to EA(x), and every other register stays; I moves only under X_PLUS_1; past
0xFFF it raises MEM_RANGE and writes nothing (42 R145). -/
def Obligations.RegisterLoad : Prop :=
  ∀ (x : Reg) (s : State),
    Decodes (wordXkk 0xF (regNibble x) 0x65) (.ldVxMem x) ∧
    (s.idx.toNat % 4096 + x.val ≤ 0xFFF →
      ∃ t, exec (.ldVxMem x) s = .next t ∧ (∀ k : Reg, k ≤ x → t.getV k = s.mem.read (s.ea k.val)) ∧
        t.idx.toNat = (match s.params.lsIncrementI with
          | .unchanged => s.idx.toNat
          | .xPlus1 => (s.idx.toNat + x.val + 1) % 65536) ∧
        t.pc = s.pc + 2 ∧ t.result = .ok ∧
        FrameExcept (fun p => p = .pc ∨ p = .idx ∨ ∃ k : Reg, k ≤ x ∧ p = .v k) s t) ∧
    (s.idx.toNat % 4096 + x.val > 0xFFF →
      ∃ t, exec (.ldVxMem x) s = .next t ∧ RaisedFrom s t .memRange (s.idx &&& 0xFFF) (encode (.ldVxMem x)))

/-- What Fx55 stored, Fx65 loads back: from any state with the store's memory and the same I, it restores V[0] to V[x]
(42 R144, R145). -/
def Obligations.LoadRestoresStoredRegisters : Prop :=
  ∀ (x : Reg) (s u : State), s.mem.wf = true → s.idx.toNat % 4096 + x.val ≤ 0xFFF →
    ∃ t, exec (.ldMemVx x) s = .next t ∧
      (u.mem = t.mem → u.idx = s.idx →
        ∃ u', exec (.ldVxMem x) u = .next u' ∧ ∀ k : Reg, k ≤ x → u'.getV k = s.getV k)

/-- Self-modifying code: bytes Fx55 stores over the next instruction are the ones the next fetch decodes (20 R64). -/
def Obligations.StoreIsSeenByNextFetch : Prop :=
  ∀ (x k : Reg) (s : State), s.mem.wf = true → s.idx.toNat % 4096 + x.val ≤ 0xFFF →
    (hk : k.val + 1 ≤ x.val) → s.ea k.val = s.pc.toNat + 2 →
      ∃ t, exec (.ldMemVx x) s = .next t ∧
        fetchInstr t =
          decode s.params.decodeStrict (bigEndian (s.getV k) (s.getV ⟨k.val + 1, by omega⟩))

/-- Memory is plain storage: a read after a write gives the byte written at its address and what was there before at
every other (20 R59, R61). -/
def Obligations.MemoryReadAfterWrite : Prop :=
  ∀ (m : Memory) (a k : Nat) (b : Byte), m.wf = true →
    (m.write a b).read k = if k = a then b else m.read k

/-! ## Display (43) -/

/-- 00E0 turns every pixel off and writes no flag (43 R161). -/
def Obligations.ClearTurnsEveryPixelOff : Prop :=
  ∀ (x : Nibble) (s : State),
    (∀ strict, strict = false ∨ x = 0 → decode strict (wordXkk 0x0 x 0xE0) = .cls x) ∧
    ∃ t, exec (.cls x) s = .next t ∧ (∀ r c, t.fb.pixel r c = false) ∧ t.pc = s.pc + 2 ∧ t.result = .ok ∧
      FrameExcept (fun p => p = .pc ∨ ∃ r c, p = .pixel r c) s t

/-- Dxyn: each pixel is toggled exactly when a 1 bit of the sprite falls on it, with every coordinate wrapped, and VF is
1 exactly when some pixel a 1 bit falls on was on before; past 0xFFF it raises MEM_RANGE and changes nothing
(43 R163, R164, R165). -/
def Obligations.DrawXorsSprite : Prop :=
  ∀ (x y : Reg) (n : Nibble) (s : State),
    Decodes (wordXyn 0xD (regNibble x) (regNibble y) n) (.drw x y n) ∧
    (n = 0 ∨ s.idx.toNat % 4096 + n.toNat ≤ 0x1000 →
      ∃ t, exec (.drw x y n) s = .next t ∧
        (∀ r c, SpriteCovers s x y n r c → t.fb.pixel r.val c.val = !s.fb.pixel r.val c.val) ∧
        (∀ r c, ¬ SpriteCovers s x y n r c → t.fb.pixel r.val c.val = s.fb.pixel r.val c.val) ∧
        ((∃ r c, SpriteCovers s x y n r c ∧ s.fb.pixel r.val c.val = true) → t.getV 15 = 1) ∧
        ((¬ ∃ r c, SpriteCovers s x y n r c ∧ s.fb.pixel r.val c.val = true) → t.getV 15 = 0) ∧
        t.pc = s.pc + 2 ∧ t.result = .ok ∧
        FrameExcept (fun p => p = .pc ∨ p = .v 15 ∨ ∃ r c, p = .pixel r c) s t) ∧
    (n ≠ 0 → s.idx.toNat % 4096 + n.toNat > 0x1000 →
      ∃ t, exec (.drw x y n) s = .next t ∧ RaisedFrom s t .memRange (s.idx &&& 0xFFF) (encode (.drw x y n)))

/-- Dxyn with n = 0 changes no pixel, sets VF to 0 and cannot fault, whatever I holds (43 R166). -/
def Obligations.DrawOfNoRows : Prop :=
  ∀ (x y : Reg) (s : State),
    ∃ t, exec (.drw x y 0) s = .next t ∧ t.getV 15 = 0 ∧ t.pc = s.pc + 2 ∧ t.result = .ok ∧
      FrameExcept (· ∈ [.pc, .v 15]) s t

/-- Double draw: drawing again with the same I, V[x], V[y], n and sprite bytes, no pixel having changed in between,
restores the framebuffer, and sets VF to 1 exactly when some 1 bit falls on a pixel that was off before the first draw
(43 R168). -/
def Obligations.SecondDrawRestores : Prop :=
  ∀ (x y : Reg) (n : Nibble) (s t u : State), exec (.drw x y n) s = .next t → t.result = .ok →
    u.fb = t.fb → u.mem = s.mem → u.idx = s.idx → u.getV x = s.getV x → u.getV y = s.getV y →
      ∃ u', exec (.drw x y n) u = .next u' ∧ u'.result = .ok ∧ u'.fb = s.fb ∧
        ((∃ r c, SpriteCovers s x y n r c ∧ s.fb.pixel r.val c.val = false) → u'.getV 15 = 1) ∧
        ((¬ ∃ r c, SpriteCovers s x y n r c ∧ s.fb.pixel r.val c.val = false) → u'.getV 15 = 0)

/-! ## Keys and timers (44, 60) -/

/-- Ex9E and ExA1 skip one instruction when the key V[x] names is, or is not, pressed in this step's snapshot; a code of
0x10 or more is not pressed, or, under LOW_NIBBLE, names the key of its low nibble (44 R180, R181, R182). -/
def Obligations.SkipsOnKey : Prop :=
  ∀ (x : Reg) (s : State),
    let code := (s.getV x).toNat
    let pressed := if code ≤ 0xF ∨ s.params.keyRangePolicy = .lowNibble then s.keys.getLsbD (code % 16) else false
    Decodes (wordXkk 0xE (regNibble x) 0x9E) (.skp x) ∧ Decodes (wordXkk 0xE (regNibble x) 0xA1) (.sknp x) ∧
    (∃ t, exec (.skp x) s = .next t ∧ t.pc = (if pressed = true then s.pc + 4 else s.pc + 2) ∧ t.result = .ok ∧
      FrameExcept (· = .pc) s t) ∧
    (∃ t, exec (.sknp x) s = .next t ∧ t.pc = (if pressed = true then s.pc + 2 else s.pc + 4) ∧ t.result = .ok ∧
      FrameExcept (· = .pc) s t)

/-- Fx0A: with no key pressed nothing changes and the result is WAIT; otherwise V[x] is the number of some pressed key
and PC advances. Which one is a free value (log 9), so with several pressed the statement fixes only that the key is
pressed (44 R184). -/
def Obligations.WaitForKey : Prop :=
  ∀ (x : Reg) (s : State),
    Decodes (wordXkk 0xF (regNibble x) 0x0A) (.ldVxK x) ∧
    (s.keys = 0 → exec (.ldVxK x) s = .next { s with result := .wait }) ∧
    (s.keys ≠ 0 →
      ∃ t, exec (.ldVxK x) s = .next t ∧ (t.getV x).toNat < 16 ∧ s.keys.getLsbD (t.getV x).toNat = true ∧
        t.pc = s.pc + 2 ∧ t.result = .ok ∧ FrameExcept (· ∈ [.pc, .v x]) s t)

/-- Fx07 reads DT, Fx15 writes DT, Fx18 writes ST and with it sound_active (44 R183, R185, R186). The directions are the
spec's general knowledge (44 R187, log 13). -/
def Obligations.TimerMoves : Prop :=
  ∀ (x : Reg) (s : State),
    Decodes (wordXkk 0xF (regNibble x) 0x07) (.ldVxDt x) ∧ Decodes (wordXkk 0xF (regNibble x) 0x15) (.ldDtVx x) ∧
    Decodes (wordXkk 0xF (regNibble x) 0x18) (.ldStVx x) ∧
    (∃ t, exec (.ldVxDt x) s = .next t ∧ t.getV x = s.dt ∧ t.pc = s.pc + 2 ∧ t.result = .ok ∧
      FrameExcept (· ∈ [.pc, .v x]) s t) ∧
    (∃ t, exec (.ldDtVx x) s = .next t ∧ t.dt = s.getV x ∧ t.pc = s.pc + 2 ∧ t.result = .ok ∧
      FrameExcept (· ∈ [.pc, .dt]) s t) ∧
    (∃ t, exec (.ldStVx x) s = .next t ∧ t.st = s.getV x ∧ (t.soundActive = true ↔ s.getV x ≠ 0) ∧
      t.pc = s.pc + 2 ∧ t.result = .ok ∧ FrameExcept (· ∈ [.pc, .st]) s t)

/-- TICK, accepted in RUNNING and EMPTY, takes 1 from each timer that is not 0 and touches nothing else
(60 R231, R232). -/
def Obligations.TickDecrementsTimers : Prop :=
  ∀ (s : State) (rest : List Command), s.inbox = .tick :: rest → s.phase ≠ .halted →
    ∃ t, step s = .next t ∧ t.dt.toNat = s.dt.toNat - 1 ∧ t.st.toNat = s.st.toNat - 1 ∧ t.result = .ok ∧
      FrameExcept (· ∈ [.dt, .st]) { s with inbox := rest } t

/-! ## Reset, load and boot (10 R39, 70) -/

/-- RESET, in every phase, sets every piece of state to its value of 10 R39; V, I, DT and ST to 0 under
`RESET_REGS = ZERO` (70 R250). -/
def Obligations.ResetSetsEveryPiece : Prop :=
  ∀ (s : State) (rest : List Command), s.inbox = .reset :: rest →
    ∃ t, step s = .next t ∧ (∀ a, t.mem.read a = 0) ∧ t.pc = 0x200 ∧ t.sp = 0 ∧ (∀ j : Fin 16, t.stack[j] = 0) ∧
      (∀ r c, t.fb.pixel r c = false) ∧ t.phase = .empty ∧ t.faultCode = .none ∧ t.faultPc = 0 ∧
      t.faultInsn = 0 ∧ t.faultInfo = 0 ∧ t.result = .ok ∧
      (s.params.resetRegs = .zero → (∀ x, t.getV x = 0) ∧ t.idx = 0 ∧ t.dt = 0 ∧ t.st = 0)

/-- LOAD in EMPTY of at most 3584 bytes puts the font at 0x000 and the program at 0x200, leaves every other byte and
every register, and leads to RUNNING; a longer one raises LOAD_SIZE and writes nothing (70 R253, R254). -/
def Obligations.LoadWritesFontAndProgram : Prop :=
  ∀ (s : State) (bytes : List Byte) (rest : List Command), s.mem.wf = true → s.phase = .empty →
    s.inbox = .load bytes :: rest →
      let u : State := { s with inbox := rest }
      (bytes.length ≤ 3584 →
        ∃ t, step s = .next t ∧ (∀ k : Fin 80, t.mem.read k.val = s.params.font[k]) ∧
          (∀ k, (h : k < bytes.length) → t.mem.read (0x200 + k) = bytes[k]) ∧ t.phase = .running ∧ t.result = .ok ∧
          FrameExcept (fun p => p = .phase ∨ (∃ a, a < 80 ∧ p = .mem a) ∨
            ∃ k, k < bytes.length ∧ p = .mem (0x200 + k)) u t) ∧
      (bytes.length > 3584 → ∃ t, step s = .next t ∧ RaisedFrom u t .loadSize 0 0)

/-- Boot: RESET, then a LOAD of any program that fits, then a STEP runs the instruction at 0x200, the program's first
two bytes (0 where it is shorter), with an empty stack (70 R251, R255). -/
def Obligations.FirstStepRunsProgramEntry : Prop :=
  ∀ (s : State) (bytes : List Byte) (keys : Word) (rnd : Byte) (rest : List Command),
    bytes.length ≤ 3584 → s.inbox = .reset :: .load bytes :: .step keys rnd :: rest →
      ∃ t u, step s = .next t ∧ step t = .next u ∧ u.phase = .running ∧ u.pc = 0x200 ∧ u.sp = 0 ∧
        step u = exec (decode s.params.decodeStrict (bigEndian (bytes.getD 0 0) (bytes.getD 1 0)))
          { u with inbox := rest, keys := keys, rnd := rnd }

/-! ## Invariants (10 R41) -/

/-- Every step keeps the invariants: memory in the model's canonical form (log 8), valid stack entries at most 0x1000 and, unless odd fetches are
allowed, even, PC at most 0x10FE, FAULT_CODE set exactly in HALTED, EMPTY blank. -/
def Obligations.EveryStepKeepsInvariants : Prop :=
  ∀ s t : State, Inv s → step s = .next t → Inv t

/-- The invariants hold after reset. -/
def Obligations.ResetMeetsInvariants : Prop := Inv State.reset

/-- Every step keeps memory in its canonical form, whatever else holds of the state. The form, rising addresses below
4096 and no listed 0, is the model's own representation (log 8); of the spec it rests only on the bound of 20 R50 and on
the zero-filled memory of 10 R39. -/
def Obligations.EveryStepKeepsMemoryCanonical : Prop :=
  ∀ s t : State, s.mem.wf = true → step s = .next t → t.mem.wf = true

/-- The behaviour parameters are fixed configuration: no step changes them (10 R31). -/
def Obligations.ParametersNeverChange : Prop :=
  ∀ s t : State, step s = .next t → t.params = s.params

/-- Every transaction answers a next state: no command and no instruction stops the machine (60 R210, R213, 45 R201). -/
def Obligations.EveryStepAnswersNext : Prop := ∀ s : State, ∃ t, step s = .next t

/-- At a jump to itself whose fetch passes its checks a run has ended: a further STEP changes no state (70 R265). The
condition on the fetch is the model's choice (log 18). -/
def Obligations.SelfJumpChangesNothing : Prop :=
  ∀ (s : State) (keys : Word) (rnd : Byte) (rest : List Command), Ended s → s.phase = .running →
    s.inbox = .step keys rnd :: rest →
      step s = .next { s with inbox := rest, keys := keys, rnd := rnd, result := .ok }

/-- NONE changes nothing in any phase; its result is OK in RUNNING and REJECTED in EMPTY and HALTED (10 R35, R37; that
it is OK in RUNNING is log 11). -/
def Obligations.NoneChangesNothing : Prop :=
  ∀ (s : State) (rest : List Command), s.inbox = .none :: rest →
    ∃ t, step s = .next t ∧ SameButHost s t ∧ t.inbox = rest ∧ t.draws = s.draws ∧
      t.result = if s.phase = .running then .ok else .rejected
end

