-- ==== Sys2Proof/Laws/Blit.lean ====
section
/-!
SUPPORT. What the sprite blit does to each pixel and to the collision (spec 43 R160-R167): a pixel is toggled exactly
when a 1 bit falls on it, and the collision is the OR over the pixels as they were before the draw.
-/

namespace Sys2Proof.Machine

/-- Coordinates count modulo the dimensions. -/
theorem pixel_congr (fb : Framebuffer) {r r' c c' : Nat} (hr : r % 32 = r' % 32) (hc : c % 64 = c' % 64) :
    fb.pixel r c = fb.pixel r' c' := by
  simp only [Framebuffer.pixel, hr, hc]

/-- Toggling one pixel changes it and no other. -/
theorem pixel_toggle (fb : Framebuffer) (r c r' c' : Nat) :
    (fb.toggle r c).pixel r' c' =
      if r' % 32 = r % 32 ∧ c' % 64 = c % 64 then !fb.pixel r' c' else fb.pixel r' c' := by
  by_cases hr : r' % 32 = r % 32
  · by_cases hc : c' % 64 = c % 64
    · simp [Framebuffer.toggle, Framebuffer.pixel, hr, hc]
    · have hc' : ¬ c % 64 = c' % 64 := fun e => hc e.symm
      simp [Framebuffer.toggle, Framebuffer.pixel, hr, hc, hc']
  · have hr' : ¬ r % 32 = r' % 32 := fun e => hr e.symm
    simp [Framebuffer.toggle, Framebuffer.pixel, hr, hr']

@[simp] theorem pixel_clear (r c : Nat) : Framebuffer.clear.pixel r c = false := by
  simp [Framebuffer.clear, Framebuffer.pixel]

/-- Two framebuffers with the same pixels are equal. -/
theorem framebuffer_ext {fb fb' : Framebuffer}
    (h : ∀ r c, r < 32 → c < 64 → fb.pixel r c = fb'.pixel r c) : fb = fb' := by
  refine Vector.ext fun r hr => Vector.ext fun c hc => ?_
  have := h r c hr hc
  simpa [Framebuffer.pixel, Nat.mod_eq_of_lt hr, Nat.mod_eq_of_lt hc] using this

/-- Whether one of the first `m` bits of a sprite row drawn at row `r` from column `c` on is 1 and falls on `(r', c')`. -/
def RowHits (row : Byte) (r c m r' c' : Nat) : Prop :=
  ∃ j, j < m ∧ spriteBit row j = true ∧ r' % 32 = r % 32 ∧ c' % 64 = (c + j) % 64

/-- The first `m` bits of a row. -/
theorem blitRow_bits (row : Byte) (r c m : Nat) (hm : m ≤ 64) (acc : Framebuffer × Bool) :
    let out := (List.range m).foldl (fun a j => blitBit (spriteBit row j) r (c + j) a) acc
    (∀ r' c', (RowHits row r c m r' c' → out.1.pixel r' c' = !acc.1.pixel r' c') ∧
      (¬ RowHits row r c m r' c' → out.1.pixel r' c' = acc.1.pixel r' c')) ∧
    (out.2 = true ↔ acc.2 = true ∨ ∃ j, j < m ∧ spriteBit row j = true ∧ acc.1.pixel r (c + j) = true) := by
  induction m with
  | zero => simp [RowHits]
  | succ m ih =>
    obtain ⟨hp, hc⟩ := ih (by omega)
    simp only [List.range_succ, List.foldl_append, List.foldl_cons, List.foldl_nil]
    generalize (List.range m).foldl (fun a j => blitBit (spriteBit row j) r (c + j) a) acc = mid at hp hc
    by_cases hb : spriteBit row m = true
    · have fresh : ∀ r' c', r' % 32 = r % 32 → c' % 64 = (c + m) % 64 → ¬ RowHits row r c m r' c' := by
        rintro r' c' - h2 ⟨j, hj, -, -, h4⟩
        omega
      have old : mid.1.pixel r (c + m) = acc.1.pixel r (c + m) := (hp r (c + m)).2 (fresh _ _ rfl rfl)
      refine ⟨fun r' c' => ?_, ?_⟩
      · simp only [blitBit, hb, if_true, pixel_toggle]
        by_cases hit : r' % 32 = r % 32 ∧ c' % 64 = (c + m) % 64
        · have h1 := (hp r' c').2 (fresh _ _ hit.1 hit.2)
          refine ⟨fun _ => by simp [hit, h1], fun hn => absurd ⟨m, by omega, hb, hit.1, hit.2⟩ hn⟩
        · rw [if_neg hit]
          refine ⟨fun ⟨j, hj, h2, h3, h4⟩ => (hp r' c').1 ⟨j, ?_, h2, h3, h4⟩,
            fun hn => (hp r' c').2 fun ⟨j, hj, h2, h3, h4⟩ => hn ⟨j, by omega, h2, h3, h4⟩⟩
          rcases Nat.lt_succ_iff_lt_or_eq.mp hj with h | h
          · exact h
          · subst h; exact absurd ⟨h3, h4⟩ hit
      · simp only [blitBit, hb, if_true, Bool.or_eq_true, hc, old]
        constructor
        · rintro ((h | ⟨j, hj, h1, h2⟩) | h)
          · exact .inl h
          · exact .inr ⟨j, by omega, h1, h2⟩
          · exact .inr ⟨m, by omega, hb, h⟩
        · rintro (h | ⟨j, hj, h1, h2⟩)
          · exact .inl (.inl h)
          · rcases Nat.lt_succ_iff_lt_or_eq.mp hj with h | h
            · exact .inl (.inr ⟨j, h, h1, h2⟩)
            · subst h; exact .inr h2
    · simp only [blitBit, hb]
      have same : ∀ {r' c'}, RowHits row r c (m + 1) r' c' ↔ RowHits row r c m r' c' := by
        intro r' c'
        constructor
        · rintro ⟨j, hj, h2, h3, h4⟩
          rcases Nat.lt_succ_iff_lt_or_eq.mp hj with h | h
          · exact ⟨j, h, h2, h3, h4⟩
          · subst h; exact absurd h2 hb
        · rintro ⟨j, hj, h⟩
          exact ⟨j, by omega, h⟩
      refine ⟨fun r' c' => ?_, ?_⟩
      · rw [same]
        simpa using hp r' c'
      · simp only [Bool.false_eq_true, if_false, hc]
        constructor
        · rintro (h | ⟨j, hj, h⟩)
          · exact .inl h
          · exact .inr ⟨j, by omega, h⟩
        · rintro (h | ⟨j, hj, h1, h2⟩)
          · exact .inl h
          · rcases Nat.lt_succ_iff_lt_or_eq.mp hj with h | h
            · exact .inr ⟨j, h, h1, h2⟩
            · subst h; exact absurd h1 hb

/-- Whether a sprite drawn at row `r` from column `c` on has a 1 bit that falls on `(r', c')`. -/
def SpriteHits (rows : List Byte) (r c r' c' : Nat) : Prop :=
  ∃ k, ∃ h : k < rows.length, RowHits rows[k] (r + k) c 8 r' c'

theorem spriteHits_cons (row : Byte) (rows : List Byte) (r c r' c' : Nat) :
    SpriteHits (row :: rows) r c r' c' ↔ RowHits row r c 8 r' c' ∨ SpriteHits rows (r + 1) c r' c' := by
  constructor
  · rintro ⟨k, hk, h⟩
    cases k with
    | zero => exact .inl h
    | succ k =>
      refine .inr ⟨k, by simpa using hk, ?_⟩
      simpa [Nat.add_assoc, Nat.add_comm 1 k] using h
  · rintro (h | ⟨k, hk, h⟩)
    · exact ⟨0, by simp, h⟩
    · exact ⟨k + 1, by simpa using hk, by simpa [Nat.add_assoc, Nat.add_comm 1 k] using h⟩

/-- The whole sprite: every pixel is toggled exactly when a 1 bit falls on it, and the collision is 1 exactly when it
was or some pixel a 1 bit falls on was on before the draw. -/
theorem blitSprite_spec (rows : List Byte) (r c : Nat) (hlen : rows.length ≤ 32) (acc : Framebuffer × Bool) :
    (∀ r' c', (SpriteHits rows r c r' c' → (blitSprite rows r c acc).1.pixel r' c' = !acc.1.pixel r' c') ∧
      (¬ SpriteHits rows r c r' c' → (blitSprite rows r c acc).1.pixel r' c' = acc.1.pixel r' c')) ∧
    ((blitSprite rows r c acc).2 = true ↔
      acc.2 = true ∨ ∃ r' c', SpriteHits rows r c r' c' ∧ acc.1.pixel r' c' = true) := by
  induction rows generalizing r acc with
  | nil => simp [blitSprite, SpriteHits]
  | cons row rows ih =>
    simp only [List.length_cons] at hlen
    obtain ⟨rp, rc⟩ := blitRow_bits row r c 8 (by omega) acc
    obtain ⟨hp, hc⟩ := ih (r + 1) (by omega) (blitRow row r c acc)
    simp only [blitSprite]
    change (∀ r' c', (RowHits row r c 8 r' c' → (blitRow row r c acc).1.pixel r' c' = !acc.1.pixel r' c') ∧
      (¬ RowHits row r c 8 r' c' → (blitRow row r c acc).1.pixel r' c' = acc.1.pixel r' c')) at rp
    change ((blitRow row r c acc).2 = true ↔ _) at rc
    have apart : ∀ {r' c'}, SpriteHits rows (r + 1) c r' c' → ¬ RowHits row r c 8 r' c' := by
      rintro r' c' ⟨k, hk, j, -, -, h1, -⟩ ⟨j', -, -, h2, -⟩
      omega
    refine ⟨fun r' c' => ⟨fun hit => ?_, fun hn => ?_⟩, ?_⟩
    · rcases (spriteHits_cons ..).mp hit with h | h
      · rw [(hp r' c').2 fun h' => apart h' h, (rp r' c').1 h]
      · rw [(hp r' c').1 h, (rp r' c').2 (apart h)]
    · rw [spriteHits_cons, not_or] at hn
      rw [(hp r' c').2 hn.2, (rp r' c').2 hn.1]
    · rw [hc, rc]
      constructor
      · rintro ((h | ⟨j, hj, h1, h2⟩) | ⟨r', c', h1, h2⟩)
        · exact .inl h
        · exact .inr ⟨r, c + j, (spriteHits_cons ..).mpr (.inl ⟨j, hj, h1, rfl, rfl⟩), h2⟩
        · exact .inr ⟨r', c', (spriteHits_cons ..).mpr (.inr h1), by rwa [(rp r' c').2 (apart h1)] at h2⟩
      · rintro (h | ⟨r', c', hit, h⟩)
        · exact .inl (.inl h)
        · rcases (spriteHits_cons ..).mp hit with h1 | h1
          · obtain ⟨j, hj, h2, h3, h4⟩ := h1
            exact .inl (.inr ⟨j, hj, h2, by rwa [pixel_congr acc.1 h3 h4] at h⟩)
          · exact .inr ⟨r', c', h1, by rwa [(rp r' c').2 (apart h1)]⟩

end Sys2Proof.Machine
end

