-- ==== Sys2Proof/Laws/Decode.lean ====
section
/-!
SUPPORT. The fields of a word and the three formats that assemble one (spec 30 R72): each format's fields read back, and
each word is assembled from its fields.
-/

namespace Sys2Proof

/-! ## Registers as nibbles -/

@[simp] theorem regNibble_toFin (x : Reg) : (regNibble x).toFin = x := rfl

@[simp] theorem regNibble_xOf (w : Word) : regNibble (xOf w) = xNibble w := rfl

@[simp] theorem regNibble_yOf (w : Word) : regNibble (yOf w) = yNibble w := rfl

/-! ## The bits of an assembled word -/

theorem getLsbD_wordNnn (f : Nibble) (a : Addr) (i : Nat) :
    (wordNnn f a).getLsbD i = if i < 12 then a.getLsbD i else f.getLsbD (i - 12) := by
  simp only [wordNnn, BitVec.getLsbD_cast, BitVec.getLsbD_append]

theorem getLsbD_wordXkk (f x : Nibble) (kk : Byte) (i : Nat) :
    (wordXkk f x kk).getLsbD i =
      if i < 8 then kk.getLsbD i else if i < 12 then x.getLsbD (i - 8) else f.getLsbD (i - 12) := by
  simp only [wordXkk, BitVec.getLsbD_cast, BitVec.getLsbD_append]
  repeat' split
  all_goals first | rfl | omega

theorem getLsbD_wordXyn (f x y n : Nibble) (i : Nat) :
    (wordXyn f x y n).getLsbD i =
      if i < 4 then n.getLsbD i else if i < 8 then y.getLsbD (i - 4)
      else if i < 12 then x.getLsbD (i - 8) else f.getLsbD (i - 12) := by
  simp only [wordXyn, BitVec.getLsbD_cast, BitVec.getLsbD_append]
  repeat' split
  all_goals first | rfl | omega

/-! ## Fields read back -/

@[simp] theorem familyOf_wordNnn (f : Nibble) (a : Addr) : familyOf (wordNnn f a) = f := by
  refine BitVec.eq_of_getLsbD_eq fun i hi => ?_
  simp only [familyOf, BitVec.getLsbD_extractLsb', getLsbD_wordNnn]
  have h12 : ¬ 12 + i < 12 := by omega
  simp [hi, h12]

@[simp] theorem nnnOf_wordNnn (f : Nibble) (a : Addr) : nnnOf (wordNnn f a) = a := by
  refine BitVec.eq_of_getLsbD_eq fun i hi => ?_
  simp only [nnnOf, BitVec.getLsbD_extractLsb', getLsbD_wordNnn]
  simp [hi]

@[simp] theorem familyOf_wordXkk (f x : Nibble) (kk : Byte) : familyOf (wordXkk f x kk) = f := by
  refine BitVec.eq_of_getLsbD_eq fun i hi => ?_
  simp only [familyOf, BitVec.getLsbD_extractLsb', getLsbD_wordXkk]
  have h8 : ¬ 12 + i < 8 := by omega
  have h12 : ¬ 12 + i < 12 := by omega
  simp [hi, h8, h12]

@[simp] theorem xNibble_wordXkk (f x : Nibble) (kk : Byte) : xNibble (wordXkk f x kk) = x := by
  refine BitVec.eq_of_getLsbD_eq fun i hi => ?_
  simp only [xNibble, BitVec.getLsbD_extractLsb', getLsbD_wordXkk]
  have h8 : ¬ 8 + i < 8 := by omega
  have h12 : 8 + i < 12 := by omega
  simp [hi, h8, h12]

@[simp] theorem kkOf_wordXkk (f x : Nibble) (kk : Byte) : kkOf (wordXkk f x kk) = kk := by
  refine BitVec.eq_of_getLsbD_eq fun i hi => ?_
  simp only [kkOf, BitVec.getLsbD_extractLsb', getLsbD_wordXkk]
  simp [hi]

@[simp] theorem familyOf_wordXyn (f x y n : Nibble) : familyOf (wordXyn f x y n) = f := by
  refine BitVec.eq_of_getLsbD_eq fun i hi => ?_
  simp only [familyOf, BitVec.getLsbD_extractLsb', getLsbD_wordXyn]
  have h4 : ¬ 12 + i < 4 := by omega
  have h8 : ¬ 12 + i < 8 := by omega
  have h12 : ¬ 12 + i < 12 := by omega
  simp [hi, h4, h8, h12]

@[simp] theorem xNibble_wordXyn (f x y n : Nibble) : xNibble (wordXyn f x y n) = x := by
  refine BitVec.eq_of_getLsbD_eq fun i hi => ?_
  simp only [xNibble, BitVec.getLsbD_extractLsb', getLsbD_wordXyn]
  have h4 : ¬ 8 + i < 4 := by omega
  have h8 : ¬ 8 + i < 8 := by omega
  have h12 : 8 + i < 12 := by omega
  simp [hi, h4, h8, h12]

@[simp] theorem yNibble_wordXyn (f x y n : Nibble) : yNibble (wordXyn f x y n) = y := by
  refine BitVec.eq_of_getLsbD_eq fun i hi => ?_
  simp only [yNibble, BitVec.getLsbD_extractLsb', getLsbD_wordXyn]
  have h4 : ¬ 4 + i < 4 := by omega
  have h8 : 4 + i < 8 := by omega
  simp [hi, h4, h8]

@[simp] theorem nOf_wordXyn (f x y n : Nibble) : nOf (wordXyn f x y n) = n := by
  refine BitVec.eq_of_getLsbD_eq fun i hi => ?_
  simp only [nOf, BitVec.getLsbD_extractLsb', getLsbD_wordXyn]
  simp [hi]

@[simp] theorem xOf_wordXkk (f x : Nibble) (kk : Byte) : xOf (wordXkk f x kk) = x.toFin := by simp [xOf]

@[simp] theorem xOf_wordXyn (f x y n : Nibble) : xOf (wordXyn f x y n) = x.toFin := by simp [xOf]

@[simp] theorem yOf_wordXyn (f x y n : Nibble) : yOf (wordXyn f x y n) = y.toFin := by simp [yOf]

/-! ## A word from its fields -/

theorem wordNnn_fields (w : Word) : wordNnn (familyOf w) (nnnOf w) = w := by
  refine BitVec.eq_of_getLsbD_eq fun i hi => ?_
  simp only [getLsbD_wordNnn, familyOf, nnnOf, BitVec.getLsbD_extractLsb']
  split
  · have h1 : i - 0 < 12 := by omega
    have h2 : 0 + (i - 0) = i := by omega
    simp_all
  · have h1 : i - 12 < 4 := by omega
    have h2 : 12 + (i - 12) = i := by omega
    simp_all

theorem wordXkk_fields (w : Word) : wordXkk (familyOf w) (xNibble w) (kkOf w) = w := by
  refine BitVec.eq_of_getLsbD_eq fun i hi => ?_
  simp only [getLsbD_wordXkk, familyOf, xNibble, kkOf, BitVec.getLsbD_extractLsb']
  split
  · have h1 : i - 0 < 8 := by omega
    have h2 : 0 + (i - 0) = i := by omega
    simp_all
  split
  · have h1 : i - 8 < 4 := by omega
    have h2 : 8 + (i - 8) = i := by omega
    simp_all
  · have h1 : i - 12 < 4 := by omega
    have h2 : 12 + (i - 12) = i := by omega
    simp_all

theorem wordXyn_fields (w : Word) : wordXyn (familyOf w) (xNibble w) (yNibble w) (nOf w) = w := by
  refine BitVec.eq_of_getLsbD_eq fun i hi => ?_
  simp only [getLsbD_wordXyn, familyOf, xNibble, yNibble, nOf, BitVec.getLsbD_extractLsb']
  split
  · have h1 : i - 0 < 4 := by omega
    have h2 : 0 + (i - 0) = i := by omega
    simp_all
  split
  · have h1 : i - 4 < 4 := by omega
    have h2 : 4 + (i - 4) = i := by omega
    simp_all
  split
  · have h1 : i - 8 < 4 := by omega
    have h2 : 8 + (i - 8) = i := by omega
    simp_all
  · have h1 : i - 12 < 4 := by omega
    have h2 : 12 + (i - 12) = i := by omega
    simp_all

/-! ## Masks -/

theorem nibble_and_ones (x : Nibble) : x &&& 15#4 = x := BitVec.and_allOnes

theorem byte_and_ones (b : Byte) : b &&& 255#8 = b := BitVec.and_allOnes

theorem wordNnn_and (f f' : Nibble) (a a' : Addr) : wordNnn f a &&& wordNnn f' a' = wordNnn (f &&& f') (a &&& a') := by
  refine BitVec.eq_of_getLsbD_eq fun i _ => ?_
  simp only [BitVec.getLsbD_and, getLsbD_wordNnn]
  split <;> rfl

theorem wordXkk_and (f f' x x' : Nibble) (kk kk' : Byte) :
    wordXkk f x kk &&& wordXkk f' x' kk' = wordXkk (f &&& f') (x &&& x') (kk &&& kk') := by
  refine BitVec.eq_of_getLsbD_eq fun i _ => ?_
  simp only [BitVec.getLsbD_and, getLsbD_wordXkk]
  split <;> (try split) <;> rfl

theorem wordXyn_and (f f' x x' y y' n n' : Nibble) :
    wordXyn f x y n &&& wordXyn f' x' y' n' = wordXyn (f &&& f') (x &&& x') (y &&& y') (n &&& n') := by
  refine BitVec.eq_of_getLsbD_eq fun i _ => ?_
  simp only [BitVec.getLsbD_and, getLsbD_wordXyn]
  repeat' split
  all_goals rfl

/-- The mask 0xF000 tests the family. -/
theorem and_F000 (w : Word) (f : Nibble) : w &&& 0xF000#16 = wordNnn f 0#12 ↔ familyOf w = f := by
  rw [show (0xF000#16) = wordNnn 0xF#4 0#12 by decide]
  constructor
  · intro h
    have h' := congrArg familyOf h
    rw [← wordNnn_fields w, wordNnn_and, familyOf_wordNnn, familyOf_wordNnn] at h'
    simpa [nibble_and_ones] using h'
  · rintro rfl
    conv_lhs => rw [← wordNnn_fields w, wordNnn_and]
    simp [nibble_and_ones]

/-- The mask 0xF00F tests the family and n. -/
theorem and_F00F (w : Word) (f n : Nibble) :
    w &&& 0xF00F#16 = wordXyn f 0#4 0#4 n ↔ familyOf w = f ∧ nOf w = n := by
  rw [show (0xF00F#16) = wordXyn 0xF#4 0#4 0#4 0xF#4 by decide]
  constructor
  · intro h
    have h1 := congrArg familyOf h
    have h2 := congrArg nOf h
    rw [← wordXyn_fields w, wordXyn_and, familyOf_wordXyn, familyOf_wordXyn] at h1
    rw [← wordXyn_fields w, wordXyn_and, nOf_wordXyn, nOf_wordXyn] at h2
    exact ⟨by simpa [nibble_and_ones, byte_and_ones] using h1, by simpa [nibble_and_ones, byte_and_ones] using h2⟩
  · rintro ⟨rfl, rfl⟩
    conv_lhs => rw [← wordXyn_fields w, wordXyn_and]
    simp [nibble_and_ones]

/-- The mask 0xF0FF tests the family and kk. -/
theorem and_F0FF (w : Word) (f : Nibble) (kk : Byte) :
    w &&& 0xF0FF#16 = wordXkk f 0#4 kk ↔ familyOf w = f ∧ kkOf w = kk := by
  rw [show (0xF0FF#16) = wordXkk 0xF#4 0#4 0xFF#8 by decide]
  constructor
  · intro h
    have h1 := congrArg familyOf h
    have h2 := congrArg kkOf h
    rw [← wordXkk_fields w, wordXkk_and, familyOf_wordXkk, familyOf_wordXkk] at h1
    rw [← wordXkk_fields w, wordXkk_and, kkOf_wordXkk, kkOf_wordXkk] at h2
    exact ⟨by simpa [nibble_and_ones, byte_and_ones] using h1, by simpa [nibble_and_ones, byte_and_ones] using h2⟩
  · rintro ⟨rfl, rfl⟩
    conv_lhs => rw [← wordXkk_fields w, wordXkk_and]
    simp [nibble_and_ones, byte_and_ones]

/-- A whole word is tested by its family, x and kk. -/
theorem eq_wordXkk (w : Word) (f x : Nibble) (kk : Byte) :
    w = wordXkk f x kk ↔ familyOf w = f ∧ xNibble w = x ∧ kkOf w = kk := by
  constructor
  · rintro rfl
    simp
  · rintro ⟨rfl, rfl, rfl⟩
    exact (wordXkk_fields w).symm

end Sys2Proof
end

