-- ==== Sys2Proof/Laws/Memory.lean ====
section
/-!
SUPPORT. Memory is plain storage in one canonical form (spec 20 R59-R61): reads after writes, and every write keeps the
form.
-/

namespace Sys2Proof.Machine

/-- Nothing is listed below the lower bound of a canonical memory. -/
theorem read_of_lt_bound {lo k : Nat} {m : Memory} (h : m.wfFrom lo = true) (hk : k < lo) : m.read k = 0#8 := by
  induction m generalizing lo with
  | nil => rfl
  | cons c m ih =>
    obtain ⟨a, b⟩ := c
    simp only [Memory.wfFrom, Bool.and_eq_true, decide_eq_true_eq] at h
    have hne : a ≠ k := by omega
    simp only [Memory.read, hne, if_false]
    exact ih h.2 (by omega)

/-- A smaller lower bound asks for less. -/
theorem wfFrom_mono {lo lo' : Nat} {m : Memory} (h : m.wfFrom lo = true) (hle : lo' ≤ lo) : m.wfFrom lo' = true := by
  cases m with
  | nil => rfl
  | cons c m =>
    obtain ⟨a, b⟩ := c
    simp only [Memory.wfFrom, Bool.and_eq_true, decide_eq_true_eq] at h ⊢
    exact ⟨⟨⟨by omega, h.1.1.2⟩, h.1.2⟩, h.2⟩

/-- A write leaves every other address alone, in any list. -/
theorem read_write_of_ne {a k : Nat} (h : k ≠ a) (b : Byte) (m : Memory) : (m.write a b).read k = m.read k := by
  have h' : a ≠ k := fun e => h e.symm
  induction m with
  | nil => by_cases hb : b = 0#8 <;> simp [Memory.write, Memory.read, hb, h']
  | cons c m ih =>
    obtain ⟨a', b'⟩ := c
    unfold Memory.write
    by_cases h1 : a < a'
    · by_cases hb : b = 0#8 <;> simp [h1, hb, Memory.read, h']
    · by_cases h2 : a = a'
      · subst h2
        by_cases hb : b = 0#8 <;> simp [hb, Memory.read, h']
      · simp only [h1, h2, if_false, Memory.read, ih]

/-- A read at the address written gives the byte written. -/
theorem read_write_same {lo a : Nat} (b : Byte) {m : Memory} (h : m.wfFrom lo = true) : (m.write a b).read a = b := by
  induction m generalizing lo with
  | nil => by_cases hb : b = 0#8 <;> simp [Memory.write, Memory.read, hb]
  | cons c m ih =>
    obtain ⟨a', b'⟩ := c
    have hw := h
    simp only [Memory.wfFrom, Bool.and_eq_true, decide_eq_true_eq] at h
    unfold Memory.write
    by_cases h1 : a < a'
    · have hne : a' ≠ a := by omega
      have h0 : Memory.read m a = 0#8 := read_of_lt_bound h.2 (by omega)
      by_cases hb : b = 0#8 <;> simp [h1, hb, Memory.read, hne, h0]
    · by_cases h2 : a = a'
      · subst h2
        have h0 : Memory.read m a = 0#8 := read_of_lt_bound h.2 (by omega)
        by_cases hb : b = 0#8 <;> simp [hb, Memory.read, h0]
      · have hne : a' ≠ a := fun e => h2 e.symm
        simp only [h1, h2, if_false, Memory.read, hne, ih h.2]

/-- A write of an address inside the address space keeps the canonical form. -/
theorem wfFrom_write {lo a : Nat} (b : Byte) {m : Memory} (h : m.wfFrom lo = true) (hlo : lo ≤ a)
    (ha : a < Config.memSize) : (m.write a b).wfFrom lo = true := by
  induction m generalizing lo with
  | nil => by_cases hb : b = 0#8 <;> simp_all [Memory.write, Memory.wfFrom]
  | cons c m ih =>
    obtain ⟨a', b'⟩ := c
    have hw := h
    simp only [Memory.wfFrom, Bool.and_eq_true, decide_eq_true_eq] at h
    unfold Memory.write
    by_cases h1 : a < a'
    · by_cases hb : b = 0#8
      · simp [h1, hb, hw]
      · simp only [h1, hb, if_true, if_false, Memory.wfFrom, Bool.and_eq_true, decide_eq_true_eq]
        exact ⟨⟨⟨hlo, ha⟩, hb⟩, ⟨⟨by omega, h.1.1.2⟩, h.1.2⟩, h.2⟩
    · by_cases h2 : a = a'
      · subst h2
        by_cases hb : b = 0#8
        · simpa [hb] using wfFrom_mono h.2 (by omega)
        · simp only [lt_irrefl, hb, if_true, if_false, Memory.wfFrom, Bool.and_eq_true, decide_eq_true_eq]
          exact ⟨⟨⟨hlo, ha⟩, hb⟩, h.2⟩
      · simp only [h1, h2, if_false, Memory.wfFrom, Bool.and_eq_true, decide_eq_true_eq]
        exact ⟨h.1, ih h.2 (by omega)⟩

theorem wf_write {a : Nat} (b : Byte) {m : Memory} (h : m.wf = true) (ha : a < Config.memSize) :
    (m.write a b).wf = true := wfFrom_write b h (Nat.zero_le _) ha

/-- Writing a block that fits keeps the canonical form. -/
theorem wf_writeBytes {a : Nat} {bs : List Byte} {m : Memory} (h : m.wf = true)
    (ha : a + bs.length ≤ Config.memSize) : (m.writeBytes a bs).wf = true := by
  induction bs generalizing a m with
  | nil => exact h
  | cons b bs ih =>
    simp only [List.length_cons] at ha
    exact ih (wf_write b h (by omega)) (by omega)

/-- A block leaves every address outside it alone, in any list. -/
theorem read_writeBytes_outside {a k : Nat} {bs : List Byte} (h : k < a ∨ a + bs.length ≤ k) (m : Memory) :
    (m.writeBytes a bs).read k = m.read k := by
  induction bs generalizing a m with
  | nil => rfl
  | cons b bs ih =>
    simp only [List.length_cons] at h
    rw [Memory.writeBytes, ih (by omega), read_write_of_ne (by omega)]

/-- A block reads back. -/
theorem read_writeBytes_inside {a k : Nat} {bs : List Byte} {m : Memory} (h : m.wf = true)
    (ha : a + bs.length ≤ Config.memSize) (hk : k < bs.length) : (m.writeBytes a bs).read (a + k) = bs[k] := by
  induction bs generalizing a k m with
  | nil => simp at hk
  | cons b bs ih =>
    simp only [List.length_cons] at ha hk
    rw [Memory.writeBytes]
    cases k with
    | zero =>
      rw [Nat.add_zero, read_writeBytes_outside (by omega)]
      exact read_write_same b h
    | succ k =>
      rw [show a + (k + 1) = a + 1 + k by omega]
      exact ih (wf_write b h (by omega)) (by omega) (by omega)

end Sys2Proof.Machine
end

