-- ==== Sys2Proof/Laws/State.lean ====
section
/-!
SUPPORT. What each update of the state leaves in each field: one lemma per field per update, true by definition.
-/

namespace Sys2Proof.Machine

/-! ## setV -/

@[simp] theorem setV_v (x : Reg) (b : Byte) (s : State) : (s.setV x b).v = s.v.set x b := rfl
@[simp] theorem setV_idx (x : Reg) (b : Byte) (s : State) : (s.setV x b).idx = s.idx := rfl
@[simp] theorem setV_pc (x : Reg) (b : Byte) (s : State) : (s.setV x b).pc = s.pc := rfl
@[simp] theorem setV_dt (x : Reg) (b : Byte) (s : State) : (s.setV x b).dt = s.dt := rfl
@[simp] theorem setV_st (x : Reg) (b : Byte) (s : State) : (s.setV x b).st = s.st := rfl
@[simp] theorem setV_stack (x : Reg) (b : Byte) (s : State) : (s.setV x b).stack = s.stack := rfl
@[simp] theorem setV_sp (x : Reg) (b : Byte) (s : State) : (s.setV x b).sp = s.sp := rfl
@[simp] theorem setV_mem (x : Reg) (b : Byte) (s : State) : (s.setV x b).mem = s.mem := rfl
@[simp] theorem setV_fb (x : Reg) (b : Byte) (s : State) : (s.setV x b).fb = s.fb := rfl
@[simp] theorem setV_phase (x : Reg) (b : Byte) (s : State) : (s.setV x b).phase = s.phase := rfl
@[simp] theorem setV_faultCode (x : Reg) (b : Byte) (s : State) : (s.setV x b).faultCode = s.faultCode := rfl
@[simp] theorem setV_faultPc (x : Reg) (b : Byte) (s : State) : (s.setV x b).faultPc = s.faultPc := rfl
@[simp] theorem setV_faultInsn (x : Reg) (b : Byte) (s : State) : (s.setV x b).faultInsn = s.faultInsn := rfl
@[simp] theorem setV_faultInfo (x : Reg) (b : Byte) (s : State) : (s.setV x b).faultInfo = s.faultInfo := rfl
@[simp] theorem setV_params (x : Reg) (b : Byte) (s : State) : (s.setV x b).params = s.params := rfl
@[simp] theorem setV_keys (x : Reg) (b : Byte) (s : State) : (s.setV x b).keys = s.keys := rfl
@[simp] theorem setV_rnd (x : Reg) (b : Byte) (s : State) : (s.setV x b).rnd = s.rnd := rfl
@[simp] theorem setV_result (x : Reg) (b : Byte) (s : State) : (s.setV x b).result = s.result := rfl
@[simp] theorem setV_inbox (x : Reg) (b : Byte) (s : State) : (s.setV x b).inbox = s.inbox := rfl
@[simp] theorem setV_draws (x : Reg) (b : Byte) (s : State) : (s.setV x b).draws = s.draws := rfl

/-! ## complete -/

@[simp] theorem complete_v (w : Word) (s : State) : (complete w s).v = s.v := rfl
@[simp] theorem complete_idx (w : Word) (s : State) : (complete w s).idx = s.idx := rfl
@[simp] theorem complete_pc (w : Word) (s : State) : (complete w s).pc = w := rfl
@[simp] theorem complete_dt (w : Word) (s : State) : (complete w s).dt = s.dt := rfl
@[simp] theorem complete_st (w : Word) (s : State) : (complete w s).st = s.st := rfl
@[simp] theorem complete_stack (w : Word) (s : State) : (complete w s).stack = s.stack := rfl
@[simp] theorem complete_sp (w : Word) (s : State) : (complete w s).sp = s.sp := rfl
@[simp] theorem complete_mem (w : Word) (s : State) : (complete w s).mem = s.mem := rfl
@[simp] theorem complete_fb (w : Word) (s : State) : (complete w s).fb = s.fb := rfl
@[simp] theorem complete_phase (w : Word) (s : State) : (complete w s).phase = s.phase := rfl
@[simp] theorem complete_faultCode (w : Word) (s : State) : (complete w s).faultCode = s.faultCode := rfl
@[simp] theorem complete_faultPc (w : Word) (s : State) : (complete w s).faultPc = s.faultPc := rfl
@[simp] theorem complete_faultInsn (w : Word) (s : State) : (complete w s).faultInsn = s.faultInsn := rfl
@[simp] theorem complete_faultInfo (w : Word) (s : State) : (complete w s).faultInfo = s.faultInfo := rfl
@[simp] theorem complete_params (w : Word) (s : State) : (complete w s).params = s.params := rfl
@[simp] theorem complete_keys (w : Word) (s : State) : (complete w s).keys = s.keys := rfl
@[simp] theorem complete_rnd (w : Word) (s : State) : (complete w s).rnd = s.rnd := rfl
@[simp] theorem complete_result (w : Word) (s : State) : (complete w s).result = .ok := rfl
@[simp] theorem complete_inbox (w : Word) (s : State) : (complete w s).inbox = s.inbox := rfl
@[simp] theorem complete_draws (w : Word) (s : State) : (complete w s).draws = s.draws := rfl

/-! ## raiseFatal -/

@[simp] theorem raiseFatal_v (f : Fatal) (w : Word) (s : State) : (raiseFatal f w s).v = s.v := rfl
@[simp] theorem raiseFatal_idx (f : Fatal) (w : Word) (s : State) : (raiseFatal f w s).idx = s.idx := rfl
@[simp] theorem raiseFatal_pc (f : Fatal) (w : Word) (s : State) : (raiseFatal f w s).pc = s.pc := rfl
@[simp] theorem raiseFatal_dt (f : Fatal) (w : Word) (s : State) : (raiseFatal f w s).dt = s.dt := rfl
@[simp] theorem raiseFatal_st (f : Fatal) (w : Word) (s : State) : (raiseFatal f w s).st = s.st := rfl
@[simp] theorem raiseFatal_stack (f : Fatal) (w : Word) (s : State) : (raiseFatal f w s).stack = s.stack := rfl
@[simp] theorem raiseFatal_sp (f : Fatal) (w : Word) (s : State) : (raiseFatal f w s).sp = s.sp := rfl
@[simp] theorem raiseFatal_mem (f : Fatal) (w : Word) (s : State) : (raiseFatal f w s).mem = s.mem := rfl
@[simp] theorem raiseFatal_fb (f : Fatal) (w : Word) (s : State) : (raiseFatal f w s).fb = s.fb := rfl
@[simp] theorem raiseFatal_phase (f : Fatal) (w : Word) (s : State) : (raiseFatal f w s).phase = .halted := rfl
@[simp] theorem raiseFatal_faultCode (f : Fatal) (w : Word) (s : State) : (raiseFatal f w s).faultCode = f.code := rfl
@[simp] theorem raiseFatal_faultPc (f : Fatal) (w : Word) (s : State) : (raiseFatal f w s).faultPc = s.pc := rfl
@[simp] theorem raiseFatal_faultInsn (f : Fatal) (w : Word) (s : State) : (raiseFatal f w s).faultInsn = w := rfl
@[simp] theorem raiseFatal_faultInfo (f : Fatal) (w : Word) (s : State) : (raiseFatal f w s).faultInfo = f.info := rfl
@[simp] theorem raiseFatal_params (f : Fatal) (w : Word) (s : State) : (raiseFatal f w s).params = s.params := rfl
@[simp] theorem raiseFatal_keys (f : Fatal) (w : Word) (s : State) : (raiseFatal f w s).keys = s.keys := rfl
@[simp] theorem raiseFatal_rnd (f : Fatal) (w : Word) (s : State) : (raiseFatal f w s).rnd = s.rnd := rfl
@[simp] theorem raiseFatal_result (f : Fatal) (w : Word) (s : State) : (raiseFatal f w s).result = .fatal := rfl
@[simp] theorem raiseFatal_inbox (f : Fatal) (w : Word) (s : State) : (raiseFatal f w s).inbox = s.inbox := rfl
@[simp] theorem raiseFatal_draws (f : Fatal) (w : Word) (s : State) : (raiseFatal f w s).draws = s.draws := rfl

/-! ## reject -/

@[simp] theorem reject_v (s : State) : (reject s).v = s.v := rfl
@[simp] theorem reject_idx (s : State) : (reject s).idx = s.idx := rfl
@[simp] theorem reject_pc (s : State) : (reject s).pc = s.pc := rfl
@[simp] theorem reject_dt (s : State) : (reject s).dt = s.dt := rfl
@[simp] theorem reject_st (s : State) : (reject s).st = s.st := rfl
@[simp] theorem reject_stack (s : State) : (reject s).stack = s.stack := rfl
@[simp] theorem reject_sp (s : State) : (reject s).sp = s.sp := rfl
@[simp] theorem reject_mem (s : State) : (reject s).mem = s.mem := rfl
@[simp] theorem reject_fb (s : State) : (reject s).fb = s.fb := rfl
@[simp] theorem reject_phase (s : State) : (reject s).phase = s.phase := rfl
@[simp] theorem reject_faultCode (s : State) : (reject s).faultCode = s.faultCode := rfl
@[simp] theorem reject_faultPc (s : State) : (reject s).faultPc = s.faultPc := rfl
@[simp] theorem reject_faultInsn (s : State) : (reject s).faultInsn = s.faultInsn := rfl
@[simp] theorem reject_faultInfo (s : State) : (reject s).faultInfo = s.faultInfo := rfl
@[simp] theorem reject_params (s : State) : (reject s).params = s.params := rfl
@[simp] theorem reject_keys (s : State) : (reject s).keys = s.keys := rfl
@[simp] theorem reject_rnd (s : State) : (reject s).rnd = s.rnd := rfl
@[simp] theorem reject_result (s : State) : (reject s).result = .rejected := rfl
@[simp] theorem reject_inbox (s : State) : (reject s).inbox = s.inbox := rfl
@[simp] theorem reject_draws (s : State) : (reject s).draws = s.draws := rfl

/-! ## doNone -/

@[simp] theorem doNone_v (s : State) : (doNone s).v = s.v := rfl
@[simp] theorem doNone_idx (s : State) : (doNone s).idx = s.idx := rfl
@[simp] theorem doNone_pc (s : State) : (doNone s).pc = s.pc := rfl
@[simp] theorem doNone_dt (s : State) : (doNone s).dt = s.dt := rfl
@[simp] theorem doNone_st (s : State) : (doNone s).st = s.st := rfl
@[simp] theorem doNone_stack (s : State) : (doNone s).stack = s.stack := rfl
@[simp] theorem doNone_sp (s : State) : (doNone s).sp = s.sp := rfl
@[simp] theorem doNone_mem (s : State) : (doNone s).mem = s.mem := rfl
@[simp] theorem doNone_fb (s : State) : (doNone s).fb = s.fb := rfl
@[simp] theorem doNone_phase (s : State) : (doNone s).phase = s.phase := rfl
@[simp] theorem doNone_faultCode (s : State) : (doNone s).faultCode = s.faultCode := rfl
@[simp] theorem doNone_faultPc (s : State) : (doNone s).faultPc = s.faultPc := rfl
@[simp] theorem doNone_faultInsn (s : State) : (doNone s).faultInsn = s.faultInsn := rfl
@[simp] theorem doNone_faultInfo (s : State) : (doNone s).faultInfo = s.faultInfo := rfl
@[simp] theorem doNone_params (s : State) : (doNone s).params = s.params := rfl
@[simp] theorem doNone_keys (s : State) : (doNone s).keys = s.keys := rfl
@[simp] theorem doNone_rnd (s : State) : (doNone s).rnd = s.rnd := rfl
@[simp] theorem doNone_result (s : State) : (doNone s).result = .ok := rfl
@[simp] theorem doNone_inbox (s : State) : (doNone s).inbox = s.inbox := rfl
@[simp] theorem doNone_draws (s : State) : (doNone s).draws = s.draws := rfl

/-! ## latchInputs -/

@[simp] theorem latchInputs_v (k : Word) (b : Byte) (s : State) : (latchInputs k b s).v = s.v := rfl
@[simp] theorem latchInputs_idx (k : Word) (b : Byte) (s : State) : (latchInputs k b s).idx = s.idx := rfl
@[simp] theorem latchInputs_pc (k : Word) (b : Byte) (s : State) : (latchInputs k b s).pc = s.pc := rfl
@[simp] theorem latchInputs_dt (k : Word) (b : Byte) (s : State) : (latchInputs k b s).dt = s.dt := rfl
@[simp] theorem latchInputs_st (k : Word) (b : Byte) (s : State) : (latchInputs k b s).st = s.st := rfl
@[simp] theorem latchInputs_stack (k : Word) (b : Byte) (s : State) : (latchInputs k b s).stack = s.stack := rfl
@[simp] theorem latchInputs_sp (k : Word) (b : Byte) (s : State) : (latchInputs k b s).sp = s.sp := rfl
@[simp] theorem latchInputs_mem (k : Word) (b : Byte) (s : State) : (latchInputs k b s).mem = s.mem := rfl
@[simp] theorem latchInputs_fb (k : Word) (b : Byte) (s : State) : (latchInputs k b s).fb = s.fb := rfl
@[simp] theorem latchInputs_phase (k : Word) (b : Byte) (s : State) : (latchInputs k b s).phase = s.phase := rfl
@[simp] theorem latchInputs_faultCode (k : Word) (b : Byte) (s : State) : (latchInputs k b s).faultCode = s.faultCode := rfl
@[simp] theorem latchInputs_faultPc (k : Word) (b : Byte) (s : State) : (latchInputs k b s).faultPc = s.faultPc := rfl
@[simp] theorem latchInputs_faultInsn (k : Word) (b : Byte) (s : State) : (latchInputs k b s).faultInsn = s.faultInsn := rfl
@[simp] theorem latchInputs_faultInfo (k : Word) (b : Byte) (s : State) : (latchInputs k b s).faultInfo = s.faultInfo := rfl
@[simp] theorem latchInputs_params (k : Word) (b : Byte) (s : State) : (latchInputs k b s).params = s.params := rfl
@[simp] theorem latchInputs_keys (k : Word) (b : Byte) (s : State) : (latchInputs k b s).keys = k := rfl
@[simp] theorem latchInputs_rnd (k : Word) (b : Byte) (s : State) : (latchInputs k b s).rnd = b := rfl
@[simp] theorem latchInputs_result (k : Word) (b : Byte) (s : State) : (latchInputs k b s).result = s.result := rfl
@[simp] theorem latchInputs_inbox (k : Word) (b : Byte) (s : State) : (latchInputs k b s).inbox = s.inbox := rfl
@[simp] theorem latchInputs_draws (k : Word) (b : Byte) (s : State) : (latchInputs k b s).draws = s.draws := rfl

/-! ## doTick -/

@[simp] theorem doTick_v (s : State) : (doTick s).v = s.v := rfl
@[simp] theorem doTick_idx (s : State) : (doTick s).idx = s.idx := rfl
@[simp] theorem doTick_pc (s : State) : (doTick s).pc = s.pc := rfl
@[simp] theorem doTick_dt (s : State) : (doTick s).dt = (if s.dt = 0#8 then s.dt else s.dt - 1#8) := rfl
@[simp] theorem doTick_st (s : State) : (doTick s).st = (if s.st = 0#8 then s.st else s.st - 1#8) := rfl
@[simp] theorem doTick_stack (s : State) : (doTick s).stack = s.stack := rfl
@[simp] theorem doTick_sp (s : State) : (doTick s).sp = s.sp := rfl
@[simp] theorem doTick_mem (s : State) : (doTick s).mem = s.mem := rfl
@[simp] theorem doTick_fb (s : State) : (doTick s).fb = s.fb := rfl
@[simp] theorem doTick_phase (s : State) : (doTick s).phase = s.phase := rfl
@[simp] theorem doTick_faultCode (s : State) : (doTick s).faultCode = s.faultCode := rfl
@[simp] theorem doTick_faultPc (s : State) : (doTick s).faultPc = s.faultPc := rfl
@[simp] theorem doTick_faultInsn (s : State) : (doTick s).faultInsn = s.faultInsn := rfl
@[simp] theorem doTick_faultInfo (s : State) : (doTick s).faultInfo = s.faultInfo := rfl
@[simp] theorem doTick_params (s : State) : (doTick s).params = s.params := rfl
@[simp] theorem doTick_keys (s : State) : (doTick s).keys = s.keys := rfl
@[simp] theorem doTick_rnd (s : State) : (doTick s).rnd = s.rnd := rfl
@[simp] theorem doTick_result (s : State) : (doTick s).result = .ok := rfl
@[simp] theorem doTick_inbox (s : State) : (doTick s).inbox = s.inbox := rfl
@[simp] theorem doTick_draws (s : State) : (doTick s).draws = s.draws := rfl

/-! ## Registers -/

@[simp] theorem getV_setV_same (x : Reg) (b : Byte) (s : State) : (s.setV x b).getV x = b := by
  simp [State.getV]

theorem getV_setV_of_ne {x r : Reg} (h : r ≠ x) (b : Byte) (s : State) : (s.setV x b).getV r = s.getV r := by
  have h' : x.val ≠ r.val := fun e => h (Fin.ext e.symm)
  simp [State.getV, Vector.getElem_set_ne _ _ h']

@[simp] theorem getV_with_v (w : Vector Byte 16) (s : State) (r : Reg) : { s with v := w }.getV r = w[r] := rfl

@[simp] theorem getV_with_idx (w : Word) (s : State) (r : Reg) : { s with idx := w }.getV r = s.getV r := rfl

@[simp] theorem getV_complete (w : Word) (s : State) (r : Reg) : (complete w s).getV r = s.getV r := rfl

@[simp] theorem getV_raiseFatal (f : Fatal) (w : Word) (s : State) (r : Reg) :
    (raiseFatal f w s).getV r = s.getV r := rfl

@[simp] theorem getV_latchInputs (k : Word) (b : Byte) (s : State) (r : Reg) :
    (latchInputs k b s).getV r = s.getV r := rfl

end Sys2Proof.Machine
end

