-- ==== Sys2Proof/Laws/Ops.lean ====
section
/-!
SUPPORT. One lemma per shared operation that says everything it can do: addresses, the range check, the commit, the call
stack, the fetch's checks, the operand forms and the flag write.
-/

namespace Sys2Proof.Machine

/-! ## Addresses and the range check (20 R55, R56) -/

theorem base_toNat (s : State) : s.base.toNat = s.idx.toNat % 4096 := by
  simp only [State.base, BitVec.toNat_and]
  exact Nat.and_two_pow_sub_one_eq_mod s.idx.toNat 12

theorem ea_eq (s : State) (k : Nat) : s.ea k = s.idx.toNat % 4096 + k := by rw [State.ea, base_toNat]

theorem ea_add (s : State) (k : Nat) : s.ea 0 + k = s.ea k := by simp [State.ea]

/-- The range check passes, or raises MEM_RANGE with the masked I. -/
theorem rangeCheck_eq (count : Nat) (s : State) :
    rangeCheck count s =
      if count = 0 ∨ s.idx.toNat % 4096 + count ≤ 4096 then none else some ⟨.memRange, s.base⟩ := by
  unfold rangeCheck
  rw [ea_eq]
  by_cases h0 : count = 0
  · simp [h0]
  · by_cases h : s.idx.toNat % 4096 + count ≤ 4096
    · have : ¬ s.idx.toNat % 4096 + (count - 1) > 0xFFF := by omega
      rw [if_neg (by tauto), if_pos (.inr h)]
    · have : s.idx.toNat % 4096 + (count - 1) > 0xFFF := by omega
      rw [if_pos ⟨h0, this⟩, if_neg (by tauto)]

theorem rangeCheck_none {count : Nat} {s : State} (h : count = 0 ∨ s.idx.toNat % 4096 + count ≤ 4096) :
    rangeCheck count s = none := by rw [rangeCheck_eq, if_pos h]

theorem rangeCheck_some {count : Nat} {s : State} (h0 : count ≠ 0) (h : s.idx.toNat % 4096 + count > 4096) :
    rangeCheck count s = some ⟨.memRange, s.base⟩ := by rw [rangeCheck_eq, if_neg (by omega)]

/-! ## The commit (30 R83) -/

@[simp] theorem commitUnless_none (i : Instr) (s t : State) : commitUnless none i s t = .next t := rfl

@[simp] theorem commitUnless_some (f : Fatal) (i : Instr) (s t : State) :
    commitUnless (some f) i s t = .next (raiseFatal f (encode i) s) := rfl

/-! ## The call stack (40 R91, R92) -/

/-- A push with room stores at SP and raises it by one. -/
theorem stackPush_ok {s : State} (h : s.sp.val < 16) (a : Word) :
    stackPush a s = .ok { s with stack := s.stack.set s.sp.val a h, sp := ⟨s.sp.val + 1, by omega⟩ } := by
  rw [stackPush, dif_pos h]

/-- A push without room raises STACK_OVERFLOW. -/
theorem stackPush_error {s : State} (h : ¬ s.sp.val < 16) (a : Word) :
    stackPush a s = .error ⟨.stackOverflow, a⟩ := by rw [stackPush, dif_neg h]

/-- A pop of a non-empty stack gives the top and lowers SP by one. -/
theorem stackPop_ok {s : State} (h : s.sp.val ≠ 0) :
    stackPop s = .ok (s.stack[s.sp.val - 1]'(by omega), { s with sp := ⟨s.sp.val - 1, by omega⟩ }) := by
  rw [stackPop, dif_neg h]

/-- A pop of an empty stack raises STACK_UNDERFLOW. -/
theorem stackPop_error {s : State} (h : s.sp.val = 0) : stackPop s = .error ⟨.stackUnderflow, 0#16⟩ := by
  rw [stackPop, dif_pos h]

/-! ## The fetch (30 R70) -/

/-- A fetch that passes its checks is at an address of at most 0xFFE. -/
theorem pc_le_of_fetchCheck {s : State} (h : fetchCheck s = none) : s.pc.toNat ≤ 0xFFE := by
  unfold fetchCheck at h
  split at h
  · simp at h
  · split at h
    · simp at h
    · omega

/-- Unless odd fetches are allowed, a fetch that passes its checks is at an even address. -/
theorem pc_even_of_fetchCheck {s : State} (h : fetchCheck s = none) (hp : s.params.oddPcPolicy = .fault) :
    s.pc.toNat % 2 = 0 := by
  unfold fetchCheck at h
  split at h
  · simp at h
  · simp only [hp, and_true] at *
    omega

/-- What a fetch raises has a code other than NONE and PC as its FAULT_INFO. -/
theorem fetchCheck_some {s : State} {f : Fatal} (h : fetchCheck s = some f) : f.code ≠ .none ∧ f.info = s.pc := by
  unfold fetchCheck at h
  split at h
  · cases h; simp
  · split at h
    · cases h; simp
    · split at h
      · cases h; simp
      · simp at h

/-! ## Operand forms -/

theorem zextAddr_toNat (a : Addr) : (zextAddr a).toNat = a.toNat := by
  simp only [zextAddr, BitVec.toNat_setWidth]
  omega

theorem zextByte_toNat (b : Byte) : (zextByte b).toNat = b.toNat := by
  simp only [zextByte, BitVec.toNat_setWidth]
  omega

theorem jumpV0Target_toNat (nnn : Addr) (s : State) :
    (jumpV0Target nnn s).toNat = nnn.toNat + (s.getV 0).toNat := by
  rw [jumpV0Target, BitVec.toNat_add, zextAddr_toNat, zextByte_toNat]
  omega

theorem glyphAddress_toNat (b : Byte) : (glyphAddress b).toNat = 5 * (b.toNat % 16) := by
  simp only [glyphAddress, BitVec.toNat_ofNat]
  omega

theorem registerBlock_length (x : Reg) (s : State) : (registerBlock x s).length = x.val + 1 := by
  simp [registerBlock]

theorem registerBlock_getElem (x : Reg) (s : State) (k : Nat) (h : k < (registerBlock x s).length) :
    (registerBlock x s)[k] = s.getV ⟨k, by simp [registerBlock_length] at h; omega⟩ := by
  simp [registerBlock, State.getV]

theorem decimalDigits_length (b : Byte) : (decimalDigits b).length = 3 := rfl

theorem loadedRegisters_getElem (x r : Reg) (s : State) :
    (loadedRegisters x s)[r] = if r ≤ x then s.mem.read (s.ea r.val) else s.getV r := by
  simp [loadedRegisters]

theorem mem_pressedKeys (s : State) (k : Reg) : k ∈ s.pressedKeys ↔ s.keys.getLsbD k.val = true := by
  simp [State.pressedKeys]

/-- No key of a non-empty snapshot is missed. -/
theorem pressedKeys_eq_nil (s : State) : s.pressedKeys = [] ↔ s.keys = 0#16 := by
  rw [List.eq_nil_iff_forall_not_mem]
  simp only [mem_pressedKeys]
  constructor
  · intro h
    refine BitVec.eq_of_getLsbD_eq fun i hi => ?_
    simpa using h ⟨i, hi⟩
  · intro h k
    simp [h]

/-- The choice answers nothing exactly when no key is pressed. -/
theorem chooseKey_eq_none (draw : Nat) (ks : List Reg) : chooseKey draw ks = none ↔ ks = [] := by
  match ks with
  | [] => simp [chooseKey]
  | [k] => simp [chooseKey]
  | k :: k' :: ks =>
    have : Config.keyChoice draw % (ks.length + 2) < (k :: k' :: ks).length := Nat.mod_lt _ (by omega)
    simp only [chooseKey, List.getElem?_eq_getElem this]
    simp

/-- The choice is one of the pressed keys. -/
theorem chooseKey_mem {draw : Nat} {ks : List Reg} {k : Reg} (h : chooseKey draw ks = some k) : k ∈ ks := by
  match ks with
  | [] => simp [chooseKey] at h
  | [k'] => simp [chooseKey] at h; simp [h]
  | k' :: k'' :: ks => exact List.mem_of_getElem? h

/-! ## The flag write (41 R124) -/

theorem writeFlagAndDest_dest {x : Reg} {s : State} (h : x ≠ 15 ∨ s.params.vfOrder = .destLast) (flag : Bool)
    (res : Byte) : (writeFlagAndDest x flag res s).getV x = res := by
  unfold writeFlagAndDest
  split
  · simp
  · next hl =>
    rcases h with h | h
    · rw [getV_setV_of_ne h, getV_setV_same]
    · simp [hl] at h

theorem writeFlagAndDest_flag {x : Reg} {s : State} (h : x ≠ 15 ∨ s.params.vfOrder = .flagLast) (flag : Bool)
    (res : Byte) : (writeFlagAndDest x flag res s).getV 15 = flagByte flag := by
  unfold writeFlagAndDest
  split
  · next hl =>
    rcases h with h | h
    · rw [getV_setV_of_ne (Ne.symm h)]
      exact getV_setV_same ..
    · simp [hl] at h
  · exact getV_setV_same ..

theorem writeFlagAndDest_other {x r : Reg} (hx : r ≠ x) (hf : r ≠ 15) (flag : Bool) (res : Byte) (s : State) :
    (writeFlagAndDest x flag res s).getV r = s.getV r := by
  unfold writeFlagAndDest
  split <;> rw [getV_setV_of_ne (by assumption), getV_setV_of_ne (by assumption)]

/-- The flag write changes only V registers. -/
theorem writeFlagAndDest_eq (x : Reg) (flag : Bool) (res : Byte) (s : State) :
    writeFlagAndDest x flag res s = { s with v := (writeFlagAndDest x flag res s).v } := by
  unfold writeFlagAndDest
  split <;> rfl

/-- With one key pressed the choice is forced. -/
theorem chooseKey_singleton (draw : Nat) (k : Reg) : chooseKey draw [k] = some k := rfl

end Sys2Proof.Machine
end

