-- ==== Sys2Proof/Laws/Exec.lean ====
section
/-!
SUPPORT. The next state of the instructions that can end in more than one way, way by way (spec 40 R93, R95, 42
R143-R145, 43 R165, 44 R184).
-/

namespace Sys2Proof.Machine

theorem exec_ret_ok (x : Nibble) {s : State} (h : s.sp.val ≠ 0) :
    exec (.ret x) s =
      .next (complete (s.stack[s.sp.val - 1]'(by omega)) { s with sp := ⟨s.sp.val - 1, by omega⟩ }) := by
  rw [exec, execRet, stackPop_ok h]

theorem exec_ret_underflow (x : Nibble) {s : State} (h : s.sp.val = 0) :
    exec (.ret x) s = .next (raiseFatal ⟨.stackUnderflow, 0#16⟩ (encode (.ret x)) s) := by
  rw [exec, execRet, stackPop_error h]

theorem exec_call_ok (nnn : Addr) {s : State} (h : s.sp.val < 16) :
    exec (.call nnn) s =
      .next (complete (zextAddr nnn)
        { s with stack := s.stack.set s.sp.val s.pcNext h, sp := ⟨s.sp.val + 1, by omega⟩ }) := by
  rw [exec, execCall, stackPush_ok h]

theorem exec_call_overflow (nnn : Addr) {s : State} (h : ¬ s.sp.val < 16) :
    exec (.call nnn) s = .next (raiseFatal ⟨.stackOverflow, s.pcNext⟩ (encode (.call nnn)) s) := by
  rw [exec, execCall, stackPush_error h]

theorem exec_ldB_ok (x : Reg) {s : State} (h : s.idx.toNat % 4096 + 3 ≤ 4096) :
    exec (.ldB x) s =
      .next (complete s.pcNext { s with mem := s.mem.writeBytes (s.ea 0) (decimalDigits (s.getV x)) }) := by
  rw [exec, execLdB, rangeCheck_none (.inr h), commitUnless_none]

theorem exec_ldB_range (x : Reg) {s : State} (h : s.idx.toNat % 4096 + 3 > 4096) :
    exec (.ldB x) s = .next (raiseFatal ⟨.memRange, s.base⟩ (encode (.ldB x)) s) := by
  rw [exec, execLdB, rangeCheck_some (by omega) h, commitUnless_some]

theorem exec_ldMemVx_ok (x : Reg) {s : State} (h : s.idx.toNat % 4096 + (x.val + 1) ≤ 4096) :
    exec (.ldMemVx x) s =
      .next (complete s.pcNext
        { s with mem := s.mem.writeBytes (s.ea 0) (registerBlock x s), idx := indexAfterBlock x s }) := by
  rw [exec, execLdMemVx, rangeCheck_none (.inr h), commitUnless_none]

theorem exec_ldMemVx_range (x : Reg) {s : State} (h : s.idx.toNat % 4096 + (x.val + 1) > 4096) :
    exec (.ldMemVx x) s = .next (raiseFatal ⟨.memRange, s.base⟩ (encode (.ldMemVx x)) s) := by
  rw [exec, execLdMemVx, rangeCheck_some (by omega) h, commitUnless_some]

theorem exec_ldVxMem_ok (x : Reg) {s : State} (h : s.idx.toNat % 4096 + (x.val + 1) ≤ 4096) :
    exec (.ldVxMem x) s =
      .next (complete s.pcNext { s with v := loadedRegisters x s, idx := indexAfterBlock x s }) := by
  rw [exec, execLdVxMem, rangeCheck_none (.inr h), commitUnless_none]

theorem exec_ldVxMem_range (x : Reg) {s : State} (h : s.idx.toNat % 4096 + (x.val + 1) > 4096) :
    exec (.ldVxMem x) s = .next (raiseFatal ⟨.memRange, s.base⟩ (encode (.ldVxMem x)) s) := by
  rw [exec, execLdVxMem, rangeCheck_some (by omega) h, commitUnless_some]

theorem exec_drw_ok (x y : Reg) {n : Nibble} {s : State}
    (h : n.toNat = 0 ∨ s.idx.toNat % 4096 + n.toNat ≤ 4096) :
    exec (.drw x y n) s =
      .next (complete s.pcNext ({ s with fb := (drawn x y n s).1 }.setV vf (flagByte (drawn x y n s).2))) := by
  rw [exec, execDrw, rangeCheck_none h, commitUnless_none]

theorem exec_drw_range (x y : Reg) {n : Nibble} {s : State} (h0 : n.toNat ≠ 0)
    (h : s.idx.toNat % 4096 + n.toNat > 4096) :
    exec (.drw x y n) s = .next (raiseFatal ⟨.memRange, s.base⟩ (encode (.drw x y n)) s) := by
  rw [exec, execDrw, rangeCheck_some h0 h, commitUnless_some]

theorem exec_ldVxK_wait (x : Reg) {s : State} (h : s.keys = 0#16) :
    exec (.ldVxK x) s = .next { s with result := .wait } := by
  rw [exec, execLdVxK, (chooseKey_eq_none _ _).mpr ((pressedKeys_eq_nil s).mpr h)]

/-- With a key pressed, Fx0A takes one of the pressed keys. -/
theorem exec_ldVxK_take (x : Reg) {s : State} (h : s.keys ≠ 0#16) :
    ∃ k : Reg, s.keys.getLsbD k.val = true ∧
      exec (.ldVxK x) s =
        .next (complete s.pcNext ({ s with draws := s.draws + 1 }.setV x (BitVec.ofNat 8 k.val))) := by
  cases hc : chooseKey s.draws s.pressedKeys with
  | none => exact absurd ((pressedKeys_eq_nil s).mp ((chooseKey_eq_none _ _).mp hc)) h
  | some k =>
    refine ⟨k, (mem_pressedKeys s k).mp (chooseKey_mem hc), ?_⟩
    rw [exec, execLdVxK, hc]

end Sys2Proof.Machine
end

