-- ==== Sys2Proof/Laws/Frame.lean ====
section
/-!
SUPPORT. Frames of the shared operations (spec 00 R14), what entering the fatal state leaves, and that every instruction
and every command answers a next state.
-/

namespace Sys2Proof.Machine

/-! ## Building frames -/

theorem FrameExcept.mono {W W' : Piece → Prop} {s t : State} (h : FrameExcept W s t) (hw : ∀ p, W p → W' p) :
    FrameExcept W' s t := ⟨fun p hp => h.1 p fun h' => hp (hw p h'), h.2⟩

theorem FrameExcept.trans {W : Piece → Prop} {s t u : State} (h : FrameExcept W s t) (h' : FrameExcept W t u) :
    FrameExcept W s u :=
  ⟨fun p hp => (h'.1 p hp).trans (h.1 p hp), h'.2.1.trans h.2.1, h'.2.2.1.trans h.2.2.1,
    h'.2.2.2.1.trans h.2.2.2.1, h'.2.2.2.2.trans h.2.2.2.2⟩

theorem frame_complete (w : Word) (s : State) : FrameExcept (· = .pc) s (complete w s) := by
  refine ⟨fun p hp => ?_, rfl, rfl, rfl, rfl⟩
  cases p <;> first | rfl | exact absurd rfl hp

theorem frame_setV (x : Reg) (b : Byte) (s : State) : FrameExcept (· = .v x) s (s.setV x b) := by
  refine ⟨fun p hp => ?_, rfl, rfl, rfl, rfl⟩
  cases p with
  | v r => exact congrArg BitVec.toNat (getV_setV_of_ne (fun e => hp (by rw [e])) b s)
  | _ => rfl

theorem frame_writeFlagAndDest (x : Reg) (flag : Bool) (res : Byte) (s : State) :
    FrameExcept (· ∈ [.v x, .v 15]) s (writeFlagAndDest x flag res s) := by
  unfold writeFlagAndDest
  have hx : ∀ p, p = Piece.v x → p ∈ [Piece.v x, .v 15] := by simp
  have hf : ∀ p, p = Piece.v 15 → p ∈ [Piece.v x, .v 15] := by simp
  split
  · exact ((frame_setV _ _ _).mono hf).trans ((frame_setV _ _ _).mono hx)
  · exact ((frame_setV _ _ _).mono hx).trans ((frame_setV _ _ _).mono hf)

theorem frame_idx (w : Word) (s : State) : FrameExcept (· = .idx) s { s with idx := w } := by
  refine ⟨fun p hp => ?_, rfl, rfl, rfl, rfl⟩
  cases p <;> first | rfl | exact absurd rfl hp

theorem frame_dt (b : Byte) (s : State) : FrameExcept (· = .dt) s { s with dt := b } := by
  refine ⟨fun p hp => ?_, rfl, rfl, rfl, rfl⟩
  cases p <;> first | rfl | exact absurd rfl hp

theorem frame_st (b : Byte) (s : State) : FrameExcept (· = .st) s { s with st := b } := by
  refine ⟨fun p hp => ?_, rfl, rfl, rfl, rfl⟩
  cases p <;> first | rfl | exact absurd rfl hp

theorem frame_fb (fb : Framebuffer) (s : State) :
    FrameExcept (fun p => ∃ r c, p = .pixel r c) s { s with fb := fb } := by
  refine ⟨fun p hp => ?_, rfl, rfl, rfl, rfl⟩
  cases p <;> first | rfl | exact absurd ⟨_, _, rfl⟩ hp

/-- Replacing the register file writes the registers it changes. -/
theorem frame_v {w : Vector Byte 16} {s : State} {W : Reg → Prop} (h : ∀ r : Reg, ¬ W r → w[r] = s.getV r) :
    FrameExcept (fun p => ∃ r, W r ∧ p = .v r) s { s with v := w } := by
  refine ⟨fun p hp => ?_, rfl, rfl, rfl, rfl⟩
  cases p with
  | v r => exact congrArg BitVec.toNat (h r fun hw => hp ⟨r, hw, rfl⟩)
  | _ => rfl

/-- A block store at EA(0) writes the bytes from EA(0) to EA(length - 1) and no other. -/
theorem frame_store (bs : List Byte) (s : State) :
    FrameExcept (fun p => ∃ k, k < bs.length ∧ p = .mem (s.ea k)) s
      { s with mem := s.mem.writeBytes (s.ea 0) bs } := by
  refine ⟨fun p hp => ?_, rfl, rfl, rfl, rfl⟩
  cases p with
  | mem a =>
    refine congrArg BitVec.toNat (read_writeBytes_outside ?_ _)
    by_contra hc
    refine hp ⟨a - s.ea 0, by omega, ?_⟩
    rw [← ea_add, Nat.add_sub_cancel' (by omega)]
  | _ => rfl

/-! ## The fatal state (60 R213) -/

theorem raisedFrom_raiseFatal (f : Fatal) (w : Word) (s : State) :
    RaisedFrom s (raiseFatal f w s) f.code f.info w := by
  refine ⟨rfl, rfl, rfl, rfl, rfl, rfl, fun p hp => ?_, rfl, rfl, rfl, rfl⟩
  cases p <;> first | rfl | exact absurd (by simp [FaultPiece]) hp

/-! ## Everything answers a next state -/

theorem commitUnless_answers (f : Option Fatal) (i : Instr) (s t : State) :
    ∃ u, commitUnless f i s t = .next u := by
  cases f <;> exact ⟨_, rfl⟩

/-- No instruction faults or is refused: a fatal condition is a next state. -/
theorem exec_answers (i : Instr) (s : State) : ∃ t, exec i s = .next t := by
  cases i with
  | ret x =>
    simp only [exec, execRet]
    split <;> exact ⟨_, rfl⟩
  | call nnn =>
    simp only [exec, execCall]
    split <;> exact ⟨_, rfl⟩
  | ldVxK x =>
    simp only [exec, execLdVxK]
    split <;> exact ⟨_, rfl⟩
  | drw x y n => exact commitUnless_answers ..
  | ldB x => exact commitUnless_answers ..
  | ldMemVx x => exact commitUnless_answers ..
  | ldVxMem x => exact commitUnless_answers ..
  | _ => exact ⟨_, rfl⟩

/-! ## What a step can do -/

/-- The command of a transaction, when the inbox holds one. -/
theorem takeCommand_cons {s : State} {c : Command} {rest : List Command} (h : s.inbox = c :: rest) :
    takeCommand s = (c, { s with inbox := rest }) := by
  rw [takeCommand, h]

/-- An accepted command runs. -/
theorem step_accepted {s : State} {c : Command} {rest : List Command} (h : s.inbox = c :: rest)
    (ha : accepts s.phase c = true) : step s = runCommand c { s with inbox := rest } := by
  rw [step, takeCommand_cons h]
  exact if_pos ha

/-- A command the phase does not accept is refused. -/
theorem step_refused {s : State} {c : Command} {rest : List Command} (h : s.inbox = c :: rest)
    (ha : accepts s.phase c = false) : step s = .next (reject { s with inbox := rest }) := by
  rw [step, takeCommand_cons h]
  exact if_neg (by simp [ha])

/-- A STEP whose fetch fails enters the fatal state with no word fetched. -/
theorem stepInstr_fault {keys : Word} {rnd : Byte} {s : State} {f : Fatal}
    (h : fetchCheck (latchInputs keys rnd s) = some f) :
    stepInstr keys rnd s = .next (raiseFatal f 0#16 (latchInputs keys rnd s)) := by
  rw [stepInstr, h]

/-- A STEP whose fetch passes runs the fetched instruction. -/
theorem stepInstr_exec {keys : Word} {rnd : Byte} {s : State} (h : fetchCheck (latchInputs keys rnd s) = none) :
    stepInstr keys rnd s = exec (fetchInstr (latchInputs keys rnd s)) (latchInputs keys rnd s) := by
  rw [stepInstr, h]

/-- Taking a command touches only the inbox and the count of draws. -/
theorem takeCommand_eq (s : State) :
    (takeCommand s).2 = { s with inbox := (takeCommand s).2.inbox, draws := (takeCommand s).2.draws } := by
  unfold takeCommand
  split <;> rfl

theorem accepts_load {p : Phase} {bytes : List Byte} (h : accepts p (.load bytes) = true) : p = .empty := by
  cases p <;> first | rfl | cases h

theorem accepts_step {p : Phase} {keys : Word} {rnd : Byte} (h : accepts p (.step keys rnd) = true) :
    p = .running := by
  cases p <;> first | rfl | cases h

theorem accepts_none {p : Phase} (h : accepts p .none = true) : p = .running := by
  cases p <;> first | rfl | cases h

theorem accepts_tick {p : Phase} (h : accepts p .tick = true) : p ≠ .halted := by
  rintro rfl
  cases h

/-- A transaction refuses its command, or does what the command says: the five accepted ones, a STEP that faults at its
fetch and a STEP that runs an instruction. -/
theorem step_cases {s t : State} (h : step s = .next t) :
    let u := (takeCommand s).2
    (accepts s.phase (takeCommand s).1 = false ∧ t = reject u) ∨
    ((takeCommand s).1 = .reset ∧ t = doReset u) ∨
    (∃ bytes, (takeCommand s).1 = .load bytes ∧ s.phase = .empty ∧ t = doLoad bytes u) ∨
    ((takeCommand s).1 = .tick ∧ s.phase ≠ .halted ∧ t = doTick u) ∨
    ((takeCommand s).1 = .none ∧ s.phase = .running ∧ t = doNone u) ∨
    (∃ keys rnd f, (takeCommand s).1 = .step keys rnd ∧ s.phase = .running ∧
      fetchCheck (latchInputs keys rnd u) = some f ∧ t = raiseFatal f 0#16 (latchInputs keys rnd u)) ∨
    (∃ keys rnd, (takeCommand s).1 = .step keys rnd ∧ s.phase = .running ∧
      fetchCheck (latchInputs keys rnd u) = none ∧
      exec (fetchInstr (latchInputs keys rnd u)) (latchInputs keys rnd u) = .next t) := by
  unfold step at h
  split at h
  · next ha =>
    generalize takeCommand s = cu at h ha ⊢
    obtain ⟨c, u⟩ := cu
    cases c with
    | reset => exact .inr (.inl ⟨rfl, (Host.Outcome.next.inj h).symm⟩)
    | load bytes => exact .inr (.inr (.inl ⟨bytes, rfl, accepts_load ha, (Host.Outcome.next.inj h).symm⟩))
    | step keys rnd =>
      simp only [runCommand, stepInstr] at h
      split at h
      · next f hf =>
        exact .inr (.inr (.inr (.inr (.inr (.inl
          ⟨keys, rnd, f, rfl, accepts_step ha, hf, (Host.Outcome.next.inj h).symm⟩)))))
      · next hf => exact .inr (.inr (.inr (.inr (.inr (.inr ⟨keys, rnd, rfl, accepts_step ha, hf, h⟩)))))
    | tick => exact .inr (.inr (.inr (.inl ⟨rfl, accepts_tick ha, (Host.Outcome.next.inj h).symm⟩)))
    | none => exact .inr (.inr (.inr (.inr (.inl ⟨rfl, accepts_none ha, (Host.Outcome.next.inj h).symm⟩))))
  · next ha => exact .inl ⟨by simpa using ha, (Host.Outcome.next.inj h).symm⟩

end Sys2Proof.Machine
end

