-- ==== Sys2Proof/Laws/PerInstr.lean ====
section
/-!
SUPPORT. Per instruction: its word is selected by its own row of the opcode table (spec 30 R80).
-/

namespace Sys2Proof.Laws.RowMatch

/-- The word of a well-formed instruction is selected by the row of its mnemonic. -/
def Statement (i : Instr) : Prop :=
  ∀ strict, wellFormed strict i = true →
    ∀ row ∈ opcodeRows, row.mnemonic = mnemonic i → rowMatches strict (encode i) row = true

/-- To check the rows it is enough to check the instruction's own. -/
theorem of_row {i : Instr} {own : OpcodeRow}
    (h : ∀ row ∈ opcodeRows, row.mnemonic = own.mnemonic → row = own) (name : mnemonic i = own.mnemonic)
    (hm : ∀ strict, wellFormed strict i = true → rowMatches strict (encode i) own = true) : Statement i := by
  intro strict hw row hr hn
  rw [h row hr (hn.trans name)]
  exact hm strict hw

theorem cls (x : Nibble) : Statement (.cls x) :=
  of_row (own := ⟨"CLS", 0x00E0#16, 0xF0FF#16, 0x00E0#16, 0xFFFF#16⟩) (by decide) rfl (by
    intro strict hw
    cases strict with
    | false =>
      have := (and_F0FF (wordXkk 0#4 x 0xE0#8) 0#4 0xE0#8).mpr ⟨by simp, by simp⟩
      simpa [rowMatches, encode] using this.trans (by decide)
    | true =>
      have hx : x = 0#4 := by simpa [wellFormed] using hw
      subst hx
      decide)

theorem ret (x : Nibble) : Statement (.ret x) :=
  of_row (own := ⟨"RET", 0x00EE#16, 0xF0FF#16, 0x00EE#16, 0xFFFF#16⟩) (by decide) rfl (by
    intro strict hw
    cases strict with
    | false =>
      have := (and_F0FF (wordXkk 0#4 x 0xEE#8) 0#4 0xEE#8).mpr ⟨by simp, by simp⟩
      simpa [rowMatches, encode] using this.trans (by decide)
    | true =>
      have hx : x = 0#4 := by simpa [wellFormed] using hw
      subst hx
      decide)

theorem jp (nnn : Addr) : Statement (.jp nnn) :=
  of_row (own := ⟨"JP", 0x1000#16, 0xF000#16, 0x1000#16, 0xF000#16⟩) (by decide) rfl (by
    intro strict _
    have := (and_F000 (wordNnn 1#4 nnn) 1#4).mpr (by simp)
    cases strict <;> simpa [rowMatches, encode] using this.trans (by decide))

theorem call (nnn : Addr) : Statement (.call nnn) :=
  of_row (own := ⟨"CALL", 0x2000#16, 0xF000#16, 0x2000#16, 0xF000#16⟩) (by decide) rfl (by
    intro strict _
    have := (and_F000 (wordNnn 2#4 nnn) 2#4).mpr (by simp)
    cases strict <;> simpa [rowMatches, encode] using this.trans (by decide))

theorem seImm (x : Reg) (kk : Byte) : Statement (.seImm x kk) :=
  of_row (own := ⟨"SE_IMM", 0x3000#16, 0xF000#16, 0x3000#16, 0xF000#16⟩) (by decide) rfl (by
    intro strict _
    have := (and_F000 (wordXkk 3#4 (regNibble x) kk) 3#4).mpr (by simp)
    cases strict <;> simpa [rowMatches, encode] using this.trans (by decide))

theorem sneImm (x : Reg) (kk : Byte) : Statement (.sneImm x kk) :=
  of_row (own := ⟨"SNE_IMM", 0x4000#16, 0xF000#16, 0x4000#16, 0xF000#16⟩) (by decide) rfl (by
    intro strict _
    have := (and_F000 (wordXkk 4#4 (regNibble x) kk) 4#4).mpr (by simp)
    cases strict <;> simpa [rowMatches, encode] using this.trans (by decide))

theorem seReg (x y : Reg) (n : Nibble) : Statement (.seReg x y n) :=
  of_row (own := ⟨"SE_REG", 0x5000#16, 0xF000#16, 0x5000#16, 0xF00F#16⟩) (by decide) rfl (by
    intro strict hw
    cases strict with
    | false =>
      have := (and_F000 (wordXyn 5#4 (regNibble x) (regNibble y) n) 5#4).mpr (by simp)
      simpa [rowMatches, encode] using this.trans (by decide)
    | true =>
      have hn : n = 0#4 := by simpa [wellFormed] using hw
      subst hn
      have := (and_F00F (wordXyn 5#4 (regNibble x) (regNibble y) 0#4) 5#4 0#4).mpr ⟨by simp, by simp⟩
      simpa [rowMatches, encode] using this.trans (by decide))

theorem ldImm (x : Reg) (kk : Byte) : Statement (.ldImm x kk) :=
  of_row (own := ⟨"LD_IMM", 0x6000#16, 0xF000#16, 0x6000#16, 0xF000#16⟩) (by decide) rfl (by
    intro strict _
    have := (and_F000 (wordXkk 6#4 (regNibble x) kk) 6#4).mpr (by simp)
    cases strict <;> simpa [rowMatches, encode] using this.trans (by decide))

theorem addImm (x : Reg) (kk : Byte) : Statement (.addImm x kk) :=
  of_row (own := ⟨"ADD_IMM", 0x7000#16, 0xF000#16, 0x7000#16, 0xF000#16⟩) (by decide) rfl (by
    intro strict _
    have := (and_F000 (wordXkk 7#4 (regNibble x) kk) 7#4).mpr (by simp)
    cases strict <;> simpa [rowMatches, encode] using this.trans (by decide))

theorem ldReg (x y : Reg) : Statement (.ldReg x y) :=
  of_row (own := ⟨"LD_REG", 0x8000#16, 0xF00F#16, 0x8000#16, 0xF00F#16⟩) (by decide) rfl (by
    intro strict _
    have := (and_F00F (wordXyn 8#4 (regNibble x) (regNibble y) 0#4) 8#4 0#4).mpr ⟨by simp, by simp⟩
    cases strict <;> simpa [rowMatches, encode] using this.trans (by decide))

theorem or (x y : Reg) : Statement (.or x y) :=
  of_row (own := ⟨"OR", 0x8001#16, 0xF00F#16, 0x8001#16, 0xF00F#16⟩) (by decide) rfl (by
    intro strict _
    have := (and_F00F (wordXyn 8#4 (regNibble x) (regNibble y) 1#4) 8#4 1#4).mpr ⟨by simp, by simp⟩
    cases strict <;> simpa [rowMatches, encode] using this.trans (by decide))

theorem and (x y : Reg) : Statement (.and x y) :=
  of_row (own := ⟨"AND", 0x8002#16, 0xF00F#16, 0x8002#16, 0xF00F#16⟩) (by decide) rfl (by
    intro strict _
    have := (and_F00F (wordXyn 8#4 (regNibble x) (regNibble y) 2#4) 8#4 2#4).mpr ⟨by simp, by simp⟩
    cases strict <;> simpa [rowMatches, encode] using this.trans (by decide))

theorem xor (x y : Reg) : Statement (.xor x y) :=
  of_row (own := ⟨"XOR", 0x8003#16, 0xF00F#16, 0x8003#16, 0xF00F#16⟩) (by decide) rfl (by
    intro strict _
    have := (and_F00F (wordXyn 8#4 (regNibble x) (regNibble y) 3#4) 8#4 3#4).mpr ⟨by simp, by simp⟩
    cases strict <;> simpa [rowMatches, encode] using this.trans (by decide))

theorem addReg (x y : Reg) : Statement (.addReg x y) :=
  of_row (own := ⟨"ADD_REG", 0x8004#16, 0xF00F#16, 0x8004#16, 0xF00F#16⟩) (by decide) rfl (by
    intro strict _
    have := (and_F00F (wordXyn 8#4 (regNibble x) (regNibble y) 4#4) 8#4 4#4).mpr ⟨by simp, by simp⟩
    cases strict <;> simpa [rowMatches, encode] using this.trans (by decide))

theorem sub (x y : Reg) : Statement (.sub x y) :=
  of_row (own := ⟨"SUB", 0x8005#16, 0xF00F#16, 0x8005#16, 0xF00F#16⟩) (by decide) rfl (by
    intro strict _
    have := (and_F00F (wordXyn 8#4 (regNibble x) (regNibble y) 5#4) 8#4 5#4).mpr ⟨by simp, by simp⟩
    cases strict <;> simpa [rowMatches, encode] using this.trans (by decide))

theorem shr (x y : Reg) : Statement (.shr x y) :=
  of_row (own := ⟨"SHR", 0x8006#16, 0xF00F#16, 0x8006#16, 0xF00F#16⟩) (by decide) rfl (by
    intro strict _
    have := (and_F00F (wordXyn 8#4 (regNibble x) (regNibble y) 6#4) 8#4 6#4).mpr ⟨by simp, by simp⟩
    cases strict <;> simpa [rowMatches, encode] using this.trans (by decide))

theorem subn (x y : Reg) : Statement (.subn x y) :=
  of_row (own := ⟨"SUBN", 0x8007#16, 0xF00F#16, 0x8007#16, 0xF00F#16⟩) (by decide) rfl (by
    intro strict _
    have := (and_F00F (wordXyn 8#4 (regNibble x) (regNibble y) 7#4) 8#4 7#4).mpr ⟨by simp, by simp⟩
    cases strict <;> simpa [rowMatches, encode] using this.trans (by decide))

theorem shl (x y : Reg) : Statement (.shl x y) :=
  of_row (own := ⟨"SHL", 0x800E#16, 0xF00F#16, 0x800E#16, 0xF00F#16⟩) (by decide) rfl (by
    intro strict _
    have := (and_F00F (wordXyn 8#4 (regNibble x) (regNibble y) 14#4) 8#4 14#4).mpr ⟨by simp, by simp⟩
    cases strict <;> simpa [rowMatches, encode] using this.trans (by decide))

theorem sneReg (x y : Reg) (n : Nibble) : Statement (.sneReg x y n) :=
  of_row (own := ⟨"SNE_REG", 0x9000#16, 0xF000#16, 0x9000#16, 0xF00F#16⟩) (by decide) rfl (by
    intro strict hw
    cases strict with
    | false =>
      have := (and_F000 (wordXyn 9#4 (regNibble x) (regNibble y) n) 9#4).mpr (by simp)
      simpa [rowMatches, encode] using this.trans (by decide)
    | true =>
      have hn : n = 0#4 := by simpa [wellFormed] using hw
      subst hn
      have := (and_F00F (wordXyn 9#4 (regNibble x) (regNibble y) 0#4) 9#4 0#4).mpr ⟨by simp, by simp⟩
      simpa [rowMatches, encode] using this.trans (by decide))

theorem ldI (nnn : Addr) : Statement (.ldI nnn) :=
  of_row (own := ⟨"LD_I", 0xA000#16, 0xF000#16, 0xA000#16, 0xF000#16⟩) (by decide) rfl (by
    intro strict _
    have := (and_F000 (wordNnn 10#4 nnn) 10#4).mpr (by simp)
    cases strict <;> simpa [rowMatches, encode] using this.trans (by decide))

theorem jpV0 (nnn : Addr) : Statement (.jpV0 nnn) :=
  of_row (own := ⟨"JP_V0", 0xB000#16, 0xF000#16, 0xB000#16, 0xF000#16⟩) (by decide) rfl (by
    intro strict _
    have := (and_F000 (wordNnn 11#4 nnn) 11#4).mpr (by simp)
    cases strict <;> simpa [rowMatches, encode] using this.trans (by decide))

theorem rnd (x : Reg) (kk : Byte) : Statement (.rnd x kk) :=
  of_row (own := ⟨"RND", 0xC000#16, 0xF000#16, 0xC000#16, 0xF000#16⟩) (by decide) rfl (by
    intro strict _
    have := (and_F000 (wordXkk 12#4 (regNibble x) kk) 12#4).mpr (by simp)
    cases strict <;> simpa [rowMatches, encode] using this.trans (by decide))

theorem drw (x y : Reg) (n : Nibble) : Statement (.drw x y n) :=
  of_row (own := ⟨"DRW", 0xD000#16, 0xF000#16, 0xD000#16, 0xF000#16⟩) (by decide) rfl (by
    intro strict _
    have := (and_F000 (wordXyn 13#4 (regNibble x) (regNibble y) n) 13#4).mpr (by simp)
    cases strict <;> simpa [rowMatches, encode] using this.trans (by decide))

theorem skp (x : Reg) : Statement (.skp x) :=
  of_row (own := ⟨"SKP", 0xE09E#16, 0xF0FF#16, 0xE09E#16, 0xF0FF#16⟩) (by decide) rfl (by
    intro strict _
    have := (and_F0FF (wordXkk 14#4 (regNibble x) 0x9E#8) 14#4 0x9E#8).mpr ⟨by simp, by simp⟩
    cases strict <;> simpa [rowMatches, encode] using this.trans (by decide))

theorem sknp (x : Reg) : Statement (.sknp x) :=
  of_row (own := ⟨"SKNP", 0xE0A1#16, 0xF0FF#16, 0xE0A1#16, 0xF0FF#16⟩) (by decide) rfl (by
    intro strict _
    have := (and_F0FF (wordXkk 14#4 (regNibble x) 0xA1#8) 14#4 0xA1#8).mpr ⟨by simp, by simp⟩
    cases strict <;> simpa [rowMatches, encode] using this.trans (by decide))

theorem ldVxDt (x : Reg) : Statement (.ldVxDt x) :=
  of_row (own := ⟨"LD_VX_DT", 0xF007#16, 0xF0FF#16, 0xF007#16, 0xF0FF#16⟩) (by decide) rfl (by
    intro strict _
    have := (and_F0FF (wordXkk 15#4 (regNibble x) 0x07#8) 15#4 0x07#8).mpr ⟨by simp, by simp⟩
    cases strict <;> simpa [rowMatches, encode] using this.trans (by decide))

theorem ldVxK (x : Reg) : Statement (.ldVxK x) :=
  of_row (own := ⟨"LD_VX_K", 0xF00A#16, 0xF0FF#16, 0xF00A#16, 0xF0FF#16⟩) (by decide) rfl (by
    intro strict _
    have := (and_F0FF (wordXkk 15#4 (regNibble x) 0x0A#8) 15#4 0x0A#8).mpr ⟨by simp, by simp⟩
    cases strict <;> simpa [rowMatches, encode] using this.trans (by decide))

theorem ldDtVx (x : Reg) : Statement (.ldDtVx x) :=
  of_row (own := ⟨"LD_DT_VX", 0xF015#16, 0xF0FF#16, 0xF015#16, 0xF0FF#16⟩) (by decide) rfl (by
    intro strict _
    have := (and_F0FF (wordXkk 15#4 (regNibble x) 0x15#8) 15#4 0x15#8).mpr ⟨by simp, by simp⟩
    cases strict <;> simpa [rowMatches, encode] using this.trans (by decide))

theorem ldStVx (x : Reg) : Statement (.ldStVx x) :=
  of_row (own := ⟨"LD_ST_VX", 0xF018#16, 0xF0FF#16, 0xF018#16, 0xF0FF#16⟩) (by decide) rfl (by
    intro strict _
    have := (and_F0FF (wordXkk 15#4 (regNibble x) 0x18#8) 15#4 0x18#8).mpr ⟨by simp, by simp⟩
    cases strict <;> simpa [rowMatches, encode] using this.trans (by decide))

theorem addI (x : Reg) : Statement (.addI x) :=
  of_row (own := ⟨"ADD_I", 0xF01E#16, 0xF0FF#16, 0xF01E#16, 0xF0FF#16⟩) (by decide) rfl (by
    intro strict _
    have := (and_F0FF (wordXkk 15#4 (regNibble x) 0x1E#8) 15#4 0x1E#8).mpr ⟨by simp, by simp⟩
    cases strict <;> simpa [rowMatches, encode] using this.trans (by decide))

theorem ldF (x : Reg) : Statement (.ldF x) :=
  of_row (own := ⟨"LD_F", 0xF029#16, 0xF0FF#16, 0xF029#16, 0xF0FF#16⟩) (by decide) rfl (by
    intro strict _
    have := (and_F0FF (wordXkk 15#4 (regNibble x) 0x29#8) 15#4 0x29#8).mpr ⟨by simp, by simp⟩
    cases strict <;> simpa [rowMatches, encode] using this.trans (by decide))

theorem ldB (x : Reg) : Statement (.ldB x) :=
  of_row (own := ⟨"LD_B", 0xF033#16, 0xF0FF#16, 0xF033#16, 0xF0FF#16⟩) (by decide) rfl (by
    intro strict _
    have := (and_F0FF (wordXkk 15#4 (regNibble x) 0x33#8) 15#4 0x33#8).mpr ⟨by simp, by simp⟩
    cases strict <;> simpa [rowMatches, encode] using this.trans (by decide))

theorem ldMemVx (x : Reg) : Statement (.ldMemVx x) :=
  of_row (own := ⟨"LD_MEM_VX", 0xF055#16, 0xF0FF#16, 0xF055#16, 0xF0FF#16⟩) (by decide) rfl (by
    intro strict _
    have := (and_F0FF (wordXkk 15#4 (regNibble x) 0x55#8) 15#4 0x55#8).mpr ⟨by simp, by simp⟩
    cases strict <;> simpa [rowMatches, encode] using this.trans (by decide))

theorem ldVxMem (x : Reg) : Statement (.ldVxMem x) :=
  of_row (own := ⟨"LD_VX_MEM", 0xF065#16, 0xF0FF#16, 0xF065#16, 0xF0FF#16⟩) (by decide) rfl (by
    intro strict _
    have := (and_F0FF (wordXkk 15#4 (regNibble x) 0x65#8) 15#4 0x65#8).mpr ⟨by simp, by simp⟩
    cases strict <;> simpa [rowMatches, encode] using this.trans (by decide))

theorem unrecognized (w : Word) : Statement (.unrecognized w) := by
  intro strict _ row hr hn
  exact absurd hn ((by decide : ∀ row ∈ opcodeRows, row.mnemonic ≠ "UNRECOGNIZED") row hr)

end Sys2Proof.Laws.RowMatch
end

