-- ==== Sys2Proof/Tests/Slice0.lean ====
section
/-!
SUPPORT. Tests. Expected values are the spec's: 95_test_vectors.md (named by its row ids) and words written out from the
encodings of 30. The last part shows, for every statement that has hypotheses, a concrete state that meets them.
-/

namespace Sys2Proof.Tests

open Sys2Proof.Machine

/-! ## Helpers -/

/-- A state after RESET and LOAD of an empty program, but for the font. -/
def start : State := { State.reset with phase := .running }

/-- One STEP of the word `w`, placed at PC of `s`. -/
def run (w : Nat) (s : State) : Host.Outcome State Fault Refusal := step (s.withFetchWord 16 w)

/-- The outcome is a next state of which `p` holds. -/
def ends (o : Host.Outcome State Fault Refusal) (p : State → Bool) : Bool :=
  match o with
  | .next t => p t
  | _ => false

/-- `s` with some V registers set. -/
def withV (vs : List (Reg × Byte)) (s : State) : State := vs.foldl (fun u p => u.setV p.1 p.2) s

/-- `s` with some pixels on. -/
def withOn (on : List (Nat × Nat)) (s : State) : State :=
  { s with fb := on.foldl (fun fb p => fb.toggle p.1 p.2) Framebuffer.clear }

/-- The pixels of a list are all `b`. -/
def pixelsAre (b : Bool) (ps : List (Nat × Nat)) (s : State) : Bool := ps.all fun p => s.fb.pixel p.1 p.2 == b

/-! ## Well-formedness: an ill-formed term for each check -/

theorem test_wf_cls_strict : wellFormed true (.cls 3) = false ∧ wellFormed false (.cls 3) = true := by decide

theorem test_wf_ret_strict : wellFormed true (.ret 1) = false ∧ wellFormed false (.ret 1) = true := by decide

theorem test_wf_seReg_strict : wellFormed true (.seReg 1 2 5) = false ∧ wellFormed false (.seReg 1 2 5) = true := by
  decide

theorem test_wf_sneReg_strict :
    wellFormed true (.sneReg 1 2 1) = false ∧ wellFormed false (.sneReg 1 2 1) = true := by decide

theorem test_wf_unrecognized_of_recognized : wellFormed false (.unrecognized 0x8124) = false := by decide

theorem test_wf_unrecognized_strict :
    wellFormed false (.unrecognized 0x5125) = false ∧ wellFormed true (.unrecognized 0x5125) = true := by decide

/-! ## Decoding: a word of each constructor, written out from 30 R74-R80 -/

theorem test_decode_cls : decode false 0x03E0 = .cls 3 := by decide

theorem test_decode_ret : decode false 0x07EE = .ret 7 := by decide

theorem test_decode_jp : decode false 0x1ABC = .jp 0xABC := by decide

theorem test_decode_call : decode false 0x2DEF = .call 0xDEF := by decide

theorem test_decode_seImm : decode false 0x3A5C = .seImm 10 0x5C := by decide

theorem test_decode_sneImm : decode false 0x4B6D = .sneImm 11 0x6D := by decide

theorem test_decode_seReg : decode false 0x5125 = .seReg 1 2 5 := by decide

theorem test_decode_ldImm : decode false 0x6A9D = .ldImm 10 0x9D := by decide

theorem test_decode_addImm : decode false 0x7F01 = .addImm 15 0x01 := by decide

theorem test_decode_ldReg : decode false 0x8F10 = .ldReg 15 1 := by decide

theorem test_decode_or : decode false 0x8121 = .or 1 2 := by decide

theorem test_decode_and : decode false 0x8342 = .and 3 4 := by decide

theorem test_decode_xor : decode false 0x8563 = .xor 5 6 := by decide

theorem test_decode_addReg : decode false 0x8784 = .addReg 7 8 := by decide

theorem test_decode_sub : decode false 0x89A5 = .sub 9 10 := by decide

theorem test_decode_shr : decode false 0x8BC6 = .shr 11 12 := by decide

theorem test_decode_subn : decode false 0x8DE7 = .subn 13 14 := by decide

theorem test_decode_shl : decode false 0x8F0E = .shl 15 0 := by decide

theorem test_decode_sneReg : decode false 0x9346 = .sneReg 3 4 6 := by decide

theorem test_decode_ldI : decode false 0xA300 = .ldI 0x300 := by decide

theorem test_decode_jpV0 : decode false 0xBFFE = .jpV0 0xFFE := by decide

theorem test_decode_rnd : decode false 0xC70F = .rnd 7 0x0F := by decide

theorem test_decode_drw : decode false 0xD012 = .drw 0 1 2 := by decide

theorem test_decode_skp : decode false 0xE59E = .skp 5 := by decide

theorem test_decode_sknp : decode false 0xE6A1 = .sknp 6 := by decide

theorem test_decode_ldVxDt : decode false 0xFD07 = .ldVxDt 13 := by decide

theorem test_decode_ldVxK : decode false 0xF50A = .ldVxK 5 := by decide

theorem test_decode_ldDtVx : decode false 0xFC15 = .ldDtVx 12 := by decide

theorem test_decode_ldStVx : decode false 0xF118 = .ldStVx 1 := by decide

theorem test_decode_addI : decode false 0xF21E = .addI 2 := by decide

theorem test_decode_ldF : decode false 0xF329 = .ldF 3 := by decide

theorem test_decode_ldB : decode false 0xFA33 = .ldB 10 := by decide

theorem test_decode_ldMemVx : decode false 0xF255 = .ldMemVx 2 := by decide

theorem test_decode_ldVxMem : decode false 0xFE65 = .ldVxMem 14 := by decide

theorem test_decode_unrecognized : decode false 0x8128 = .unrecognized 0x8128 := by decide

theorem test_decode_strict : decode true 0x03E0 = .unrecognized 0x03E0 ∧ decode true 0x01EE = .unrecognized 0x01EE ∧
    decode true 0x5125 = .unrecognized 0x5125 ∧ decode true 0x9121 = .unrecognized 0x9121 := by decide

theorem test_decodeBytes : decodeBytes false [0x81, 0x24, 0x60] = .ok (.addReg 1 2, [0x60]) := by decide

theorem test_decodeBytes_truncated : decodeBytes false [0x81] = .error .truncated := by decide

theorem test_decodeTableWord : decodeTableWord 16 0x6A9D = some (.ldImm 10 0x9D) := by decide

/-! ## Fetch and commands (FE, RL) -/

/-- The first step after reset with a word placed runs it (AL-1). -/
theorem test_first_step_from_reset : ends (run 0x6A9D State.reset) (fun t => t.getV 10 == 0x9D && t.pc == 0x202) := by
  decide

/-- FE-3: the odd check comes first. -/
theorem test_fetch_odd_first :
    ends (step { start with pc := 0xFFF, inbox := [.step 0 0] })
      (fun t => t.faultCode == .fetchOdd && t.faultInfo == 0xFFF && t.faultInsn == 0 && t.pc == 0xFFF) := by decide

/-- FE-7: the largest reachable PC. -/
theorem test_fetch_range :
    ends (step { start with pc := 0x10FE, inbox := [.step 0 0] })
      (fun t => t.faultCode == .fetchRange && t.faultInfo == 0x10FE && t.phase == .halted) := by decide

/-- FE-4. -/
theorem test_fetch_low :
    ends (step { start with pc := 0x1FE, inbox := [.step 0 0] })
      (fun t => t.faultCode == .fetchLow && t.faultInfo == 0x1FE && t.result == .fatal) := by decide

/-- FE-6: the last legal fetch address. -/
theorem test_fetch_last : ends (run 0x6107 { start with pc := 0xFFE }) (fun t => t.getV 1 == 7 && t.pc == 0x1000) := by
  decide

/-- FE-5. -/
theorem test_fetch_low_allowed :
    ends (run 0x6107 { start with pc := 0x1FE, params := { defaultParams with lowExecPolicy := .fetch } })
      (fun t => t.getV 1 == 7 && t.pc == 0x200) := by decide

/-- FE-8. -/
theorem test_fetch_odd_allowed :
    ends (run 0x6107 { start with pc := 0x201, params := { defaultParams with oddPcPolicy := .fetch } })
      (fun t => t.getV 1 == 7 && t.pc == 0x203) := by decide

/-- FE-9. -/
theorem test_fetch_odd_allowed_range :
    ends (step { start with
        pc := 0xFFF, params := { defaultParams with oddPcPolicy := .fetch }, inbox := [.step 0 0] })
      (fun t => t.faultCode == .fetchRange && t.faultInfo == 0xFFF) := by decide

/-- RL-2. -/
theorem test_step_rejected_in_empty :
    ends (step { State.reset with inbox := [.step 0 0] }) (fun t => t == { State.reset with result := .rejected }) := by
  decide

/-- RL-8. -/
theorem test_tick_rejected_in_halted :
    ends (step { start with phase := .halted, dt := 3, inbox := [.tick] })
      (fun t => t.result == .rejected && t.dt == 3) := by decide

/-- RL-10, 10 R35. -/
theorem test_none : ends (step { start with inbox := [.none] }) (fun t => t == start) := by decide

/-- 10 R37: NONE is listed neither for EMPTY nor for HALTED. -/
theorem test_none_rejected :
    ends (step { State.reset with inbox := [.none] }) (fun t => t == { State.reset with result := .rejected }) ∧
      ends (step { start with phase := .halted, faultCode := .memRange, inbox := [.none] })
        (fun t => t.result == .rejected && t.phase == .halted && t.faultCode == .memRange) := by decide

/-- RL-4. -/
theorem test_load_empty :
    ends (step { State.reset with inbox := [.load []] })
      (fun t => t.mem.read 0 == 0xF0 && t.mem.read 0x4F == 0x80 && t.mem.read 0x50 == 0 && t.phase == .running) := by
  decide

/-- RL-1. -/
theorem test_reset :
    ends (step { start with phase := .halted, faultCode := .memRange, mem := [(5, 1)], dt := 9, inbox := [.reset] })
      (fun t => t == State.reset) := by decide

/-- KT-17, KT-18. -/
theorem test_tick : ends (step { start with dt := 3, st := 1, inbox := [.tick] })
    (fun t => t.dt == 2 && t.st == 0 && t.soundActive == false && t.pc == 0x200) := by decide

/-- KT-19. -/
theorem test_tick_zero : ends (step { start with inbox := [.tick] }) (fun t => t.dt == 0 && t.st == 0) := by decide

/-! ## Control transfer (CF) -/

/-- CF-3. -/
theorem test_ret :
    ends (run 0x00EE
        { start with pc := 0x300, sp := 3, stack := #v[0x204, 0x30A, 0x402, 0, 0, 0, 0, 0, 0, 0, 0, 0, 0, 0, 0, 0] })
      (fun t => t.pc == 0x402 && t.sp == 2 && t.stack[2] == 0x402) := by decide

/-- CF-2. -/
theorem test_ret_underflow :
    ends (run 0x00EE { start with pc := 0x20C })
      (fun t => t.faultCode == .stackUnderflow && t.faultPc == 0x20C && t.faultInsn == 0x00EE && t.faultInfo == 0) := by
  decide

/-- CF-6. -/
theorem test_jp :
    ends (run 0x1301 start)
      (fun t => t.pc == 0x301) := by decide

/-- CF-8. -/
theorem test_call :
    ends (run 0x2400 { start with pc := 0x300, sp := 15 })
      (fun t => t.pc == 0x400 && t.sp == 16 && t.stack[15] == 0x302) := by decide

/-- CF-9. -/
theorem test_call_overflow :
    ends (run 0x2400 { start with pc := 0x300, sp := 16 })
      (fun t => t.faultCode == .stackOverflow && t.faultPc == 0x300 &&
        t.faultInsn == 0x2400 && t.faultInfo == 0x302 && t.sp == 16) := by decide

/-- CF-11. -/
theorem test_seImm_equal :
    ends (run 0x3342 (withV [(3, 0x42)] { start with pc := 0x300 }))
      (fun t => t.pc == 0x304) := by decide

/-- CF-12. -/
theorem test_seImm_differs :
    ends (run 0x3342 (withV [(3, 0x41)] { start with pc := 0x300 }))
      (fun t => t.pc == 0x302) := by decide

/-- CF-14. -/
theorem test_sneImm_differs :
    ends (run 0x4342 (withV [(3, 0x41)] { start with pc := 0x300 }))
      (fun t => t.pc == 0x304) := by decide

/-- CF-15. -/
theorem test_sneImm_equal :
    ends (run 0x4342 (withV [(3, 0x42)] { start with pc := 0x300 }))
      (fun t => t.pc == 0x302) := by decide

/-- CF-19. -/
theorem test_seReg_equal :
    ends (run 0x5125 (withV [(1, 7), (2, 7)] start))
      (fun t => t.pc == 0x204) := by decide

/-- CF-17. -/
theorem test_seReg_differs :
    ends (run 0x5120 (withV [(1, 7), (2, 8)] start))
      (fun t => t.pc == 0x202) := by decide

/-- CF-21. -/
theorem test_sneReg_differs :
    ends (run 0x9120 (withV [(1, 7), (2, 8)] start))
      (fun t => t.pc == 0x204) := by decide

/-- CF-22. -/
theorem test_sneReg_equal :
    ends (run 0x9120 (withV [(1, 7), (2, 7)] start))
      (fun t => t.pc == 0x202) := by decide

/-- CF-25. -/
theorem test_jpV0 :
    ends (run 0xBFFF (withV [(0, 0xFF)] start))
      (fun t => t.pc == 0x10FE) := by decide

/-! ## Registers and arithmetic (AL) -/

/-- AL-2. -/
theorem test_ldImm :
    ends (run 0x6F07 (withV [(15, 1)] start))
      (fun t => t.getV 15 == 7 && t.pc == 0x202) := by decide

/-- AL-4. -/
theorem test_addImm_wraps :
    ends (run 0x7205 (withV [(2, 0xFE), (15, 0x55)] start))
      (fun t => t.getV 2 == 3 && t.getV 15 == 0x55) := by decide

/-- AL-7. -/
theorem test_ldReg :
    ends (run 0x8F10 (withV [(1, 0x44), (15, 1)] start))
      (fun t => t.getV 15 == 0x44 && t.getV 1 == 0x44) := by decide

/-- AL-8. -/
theorem test_or :
    ends (run 0x8121 (withV [(1, 0xF0), (2, 0x0F), (15, 0x55)] start))
      (fun t => t.getV 1 == 0xFF && t.getV 15 == 0x55) := by decide

/-- AL-9. -/
theorem test_and :
    ends (run 0x8122 (withV [(1, 0xF0), (2, 0x3C), (15, 0x55)] start))
      (fun t => t.getV 1 == 0x30 && t.getV 15 == 0x55) := by decide

/-- AL-10. -/
theorem test_xor :
    ends (run 0x8123 (withV [(1, 0xF0), (2, 0x3C), (15, 0x55)] start))
      (fun t => t.getV 1 == 0xCC && t.getV 15 == 0x55) := by decide

/-- AL-18: the pre-state VF is the operand. -/
theorem test_addReg_carry :
    ends (run 0x81F4 (withV [(1, 0x10), (15, 0xF0)] start))
      (fun t => t.getV 1 == 0 && t.getV 15 == 1) := by decide

/-- AL-17. -/
theorem test_addReg_vf_flag_last :
    ends (run 0x8FF4 (withV [(15, 0x80)] { start with params := { defaultParams with vfOrder := .flagLast } }))
      (fun t => t.getV 15 == 1) := by decide

/-- AL-19. -/
theorem test_sub_borrow :
    ends (run 0x8125 (withV [(1, 5), (2, 7), (15, 0x55)] start))
      (fun t => t.getV 1 == 0xFE && t.getV 15 == 0) := by decide

/-- AL-23. -/
theorem test_sub_vf_dest_last :
    ends (run 0x8F15 (withV [(1, 1), (15, 3)] start))
      (fun t => t.getV 15 == 2) := by decide

/-- AL-25. -/
theorem test_shr :
    ends (run 0x8126 (withV [(1, 5)] start))
      (fun t => t.getV 1 == 2 && t.getV 15 == 1) := by decide

/-- AL-27. -/
theorem test_shr_vy :
    ends (run 0x8126 (withV [(1, 4), (2, 3), (15, 0x55)]
        { start with params := { defaultParams with shiftSource := .vy } }))
      (fun t => t.getV 1 == 1 && t.getV 15 == 1) := by decide

/-- AL-30. -/
theorem test_subn :
    ends (run 0x8127 (withV [(1, 7), (2, 5), (15, 0x55)] start))
      (fun t => t.getV 1 == 0xFE && t.getV 15 == 0) := by decide

/-- AL-31. -/
theorem test_subn_equal :
    ends (run 0x8127 (withV [(1, 7), (2, 7)] start))
      (fun t => t.getV 1 == 0 && t.getV 15 == 1) := by decide

/-- AL-32. -/
theorem test_shl :
    ends (run 0x812E (withV [(1, 0x81)] start))
      (fun t => t.getV 1 == 2 && t.getV 15 == 1) := by decide

/-- AL-34. -/
theorem test_shl_vy :
    ends (run 0x812E (withV [(1, 1), (2, 0x80)] { start with params := { defaultParams with shiftSource := .vy } }))
      (fun t => t.getV 1 == 0 && t.getV 15 == 1) := by decide

/-- AL-37. -/
theorem test_rnd :
    ends (run 0xC30F { start with rnd := 0xB7 })
      (fun t => t.getV 3 == 7 && t.pc == 0x202) := by decide

/-! ## Index register and memory (IM) -/

/-- IM-2. -/
theorem test_ldI :
    ends (run 0xAFFF { start with idx := 0xF123 })
      (fun t => t.idx == 0xFFF) := by decide

/-- IM-4. -/
theorem test_addI_keeps_bit_12 :
    ends (run 0xF21E (withV [(2, 1)] { start with idx := 0xFFF }))
      (fun t => t.idx == 0x1000 && t.getV 15 == 0) := by decide

/-- IM-5. -/
theorem test_addI_wraps :
    ends (run 0xF21E (withV [(2, 2)] { start with idx := 0xFFFF }))
      (fun t => t.idx == 1) := by decide

/-- IM-7. -/
theorem test_ldF :
    ends (run 0xF429 (withV [(4, 0x1A)] start))
      (fun t => t.idx == 0x32) := by decide

/-- IM-14: the base is masked. -/
theorem test_ldB :
    ends (run 0xFA33 (withV [(10, 0x2A)] { start with idx := 0x1300 }))
      (fun t => t.mem.read 0x300 == 0 && t.mem.read 0x301 == 4 && t.mem.read 0x302 == 2 && t.idx == 0x1300) := by
  decide

/-- IM-13. -/
theorem test_ldB_range :
    ends (run 0xFA33 (withV [(10, 7)] { start with idx := 0xFFE }))
      (fun t => t.faultCode == .memRange && t.faultInsn == 0xFA33 && t.faultInfo == 0xFFE && t.mem.read 0xFFE == 0) := by
  decide

/-- IM-16. -/
theorem test_ldMemVx_increment :
    ends (run 0xF255 (withV [(0, 1), (1, 2), (2, 3)]
        { start with idx := 0x400, params := { defaultParams with lsIncrementI := .xPlus1 } }))
      (fun t => t.mem.read 0x400 == 1 && t.mem.read 0x402 == 3 && t.mem.read 0x403 == 0 && t.idx == 0x403) := by
  decide

/-- IM-19. -/
theorem test_ldMemVx_top :
    ends (run 0xFF55 (withV [(15, 0x77)] { start with idx := 0xFF0 }))
      (fun t => t.mem.read 0xFFF == 0x77 && t.result == .ok && t.idx == 0xFF0) := by decide

/-- IM-20. -/
theorem test_ldVxMem :
    ends (run 0xF265 (withV [(3, 9)]
        { start with idx := 0x300, mem := [(0x300, 1), (0x301, 5), (0x302, 7), (0x303, 8)] }))
      (fun t => t.getV 0 == 1 && t.getV 1 == 5 && t.getV 2 == 7 && t.getV 3 == 9 && t.idx == 0x300) := by decide

/-- IM-23. -/
theorem test_ldVxMem_range :
    ends (run 0xFF65 (withV [(0, 5)] { start with idx := 0xFF1 }))
      (fun t => t.faultCode == .memRange && t.faultInfo == 0xFF1 && t.getV 0 == 5 && t.pc == 0x200) := by decide

/-! ## Display (DS) -/

/-- DS-1, DS-2. -/
theorem test_cls :
    ends (run 0x03E0 (withV [(15, 1)] (withOn [(0, 0), (31, 63), (10, 20)] start)))
      (fun t => pixelsAre false [(0, 0), (31, 63), (10, 20)] t && t.getV 15 == 1) := by decide

/-- DS-4. -/
theorem test_drw_wraps :
    ends (run 0xD012 (withV [(0, 0x3F), (1, 0x1F), (15, 0x55)]
        { start with idx := 0x210, mem := [(0x210, 0xC0), (0x211, 0x81)] }))
      (fun t => pixelsAre true [(0, 6), (0, 63), (31, 0), (31, 63)] t &&
        pixelsAre false [(0, 0), (0, 7), (31, 1)] t && t.getV 15 == 0) := by decide

/-- DS-12. -/
theorem test_drw_collides_vf_coordinates :
    ends (run 0xDFF1 (withV [(15, 2)] (withOn [(2, 2)] { start with idx := 0x210, mem := [(0x210, 0x80)] })))
      (fun t => pixelsAre false [(2, 2)] t && t.getV 15 == 1) := by decide

/-! ## Keys and timers (KT) -/

/-- KT-1. -/
theorem test_skp :
    ends (run 0xE59E (withV [(5, 0x0A)] { start with pc := 0x202, keys := 0x400 }))
      (fun t => t.pc == 0x206) := by decide

/-- KT-4. -/
theorem test_skp_low_nibble :
    ends (run 0xE59E (withV [(5, 0x1A)]
        { start with pc := 0x202, keys := 0x400, params := { defaultParams with keyRangePolicy := .lowNibble } }))
      (fun t => t.pc == 0x206) := by decide

/-- KT-6. -/
theorem test_sknp :
    ends (run 0xE5A1 (withV [(5, 0x0A)] { start with pc := 0x202, keys := 0x400 }))
      (fun t => t.pc == 0x204) := by decide

/-- KT-7. -/
theorem test_sknp_high_code :
    ends (run 0xE5A1 (withV [(5, 0x1A)] { start with pc := 0x202, keys := 0xFFFF }))
      (fun t => t.pc == 0x206) := by decide

/-- KT-9. -/
theorem test_ldVxDt :
    ends (run 0xFD07 { start with dt := 3 })
      (fun t => t.getV 13 == 3 && t.dt == 3) := by decide

/-- KT-11. -/
theorem test_ldVxK_wait :
    ends (run 0xF50A (withV [(5, 9)] start))
      (fun t => t.result == .wait && t.pc == 0x200 && t.getV 5 == 9) := by decide

/-- KT-12. -/
theorem test_ldVxK_take :
    ends (run 0xF50A { start with keys := 0x400 })
      (fun t => t.getV 5 == 0x0A && t.pc == 0x202 && t.result == .ok) := by decide

/-- KT-14. -/
theorem test_ldDtVx :
    ends (run 0xFC15 (withV [(12, 3)] start))
      (fun t => t.dt == 3 && t.pc == 0x202) := by decide

/-- KT-16. -/
theorem test_ldStVx :
    ends (run 0xF118 (withV [(1, 0x10)] start))
      (fun t => t.st == 0x10 && t.soundActive) := by decide

/-! ## Unrecognized words (UN) -/

/-- UN-3: 0nnn is no SYS call. -/
theorem test_unrecognized :
    ends (run 0x0123 { start with sp := 1 })
      (fun t => t.pc == 0x202 && t.sp == 1 && t.result == .ok) := by decide

/-- DS-3. -/
theorem test_unrecognized_strict_cls :
    ends (run 0x03E0 (withOn [(5, 5)] { start with params := { defaultParams with decodeStrict := true } }))
      (fun t => pixelsAre true [(5, 5)] t && t.pc == 0x202) := by decide

/-! ## Witnesses: states that meet the hypotheses of the statements -/

theorem witness_DecodeOfEncodeIsIdentity :
    wellFormed true (.cls 0) = true ∧ wellFormed false (.sneReg 15 15 15) = true ∧
      wellFormed true (.unrecognized 0xFFFF) = true := by decide

theorem witness_DecodeFollowsOpcodeTable :
    (∃ row ∈ opcodeRows, rowMatches false 0x8124 row = true) ∧
      (∃ row ∈ opcodeRows, ∃ row' ∈ opcodeRows, rowMatches true 0xFF65 row = true ∧ rowMatches true 0xFF65 row' = true) ∧
      recognized false 0x8128 = false := by decide

theorem witness_UnrecognizedWordsAreTheListedOnes :
    decode false 0x00E1 = .unrecognized 0x00E1 ∧ decode false 0x8FFF = .unrecognized 0x8FFF ∧
      decode false 0xE0A0 = .unrecognized 0xE0A0 ∧ decode false 0xF066 = .unrecognized 0xF066 := by decide

theorem witness_StrictDecodingOnlyAddsZeroChecks :
    (familyOf 0x0FE0 = 0 ∧ xNibble 0x0FE0 ≠ 0) ∧ (familyOf 0x5121 = 5 ∧ nOf 0x5121 ≠ 0) ∧
      (familyOf 0x912F = 9 ∧ nOf 0x912F ≠ 0) ∧
      (¬ (familyOf 0x00E0 = 0 ∧ xNibble 0x00E0 ≠ 0) ∧
        ¬ ((familyOf 0x00E0 = 5 ∨ familyOf 0x00E0 = 9) ∧ nOf 0x00E0 ≠ 0)) := by decide

/-- A state about to STEP at `pc`. -/
def atPc (pc : Word) : State := { start with pc := pc, inbox := [.step 3 5] }

theorem witness_StepRunsTheFetchedInstruction :
    (atPc 0x200).phase = .running ∧ (atPc 0x200).inbox = .step 3 5 :: [] ∧ fetchCheck (atPc 0x200) = none := by decide

/-- One state for each of the four clauses: odd, past 0xFFE, below 0x200, and a fetch that passes at 0xFFE. -/
theorem witness_FetchChecksInOrder :
    ((atPc 0xFFF).pc.toNat % 2 = 1 ∧ (atPc 0xFFF).params.oddPcPolicy = .fault) ∧
      ((atPc 0x1000).pc.toNat % 2 = 0 ∧ (atPc 0x1000).pc.toNat > 0xFFE) ∧
      ((atPc 0x1FE).pc.toNat % 2 = 0 ∧ (atPc 0x1FE).pc.toNat < 0x200 ∧ (atPc 0x1FE).params.lowExecPolicy = .fault) ∧
      fetchCheck (atPc 0xFFE) = none ∧ (atPc 0xFFE).phase = .running ∧ (atPc 0xFFE).inbox = [.step 3 5] := by decide

theorem witness_RefusedCommandChangesNothing :
    (∃ s : State, s.inbox = .step 3 5 :: [] ∧ s.phase ≠ .running) ∧
      (∃ s : State, s.inbox = .none :: [] ∧ s.phase ≠ .running) ∧
      (∃ s : State, s.inbox = .load [1] :: [] ∧ s.phase ≠ .empty) ∧
      (∃ s : State, s.inbox = .tick :: [] ∧ s.phase = .halted) :=
  ⟨⟨{ State.reset with inbox := [.step 3 5] }, by decide⟩, ⟨{ State.reset with inbox := [.none] }, by decide⟩,
    ⟨{ start with inbox := [.load [1]] }, by decide⟩,
    ⟨{ start with phase := .halted, inbox := [.tick] }, by decide⟩⟩

theorem witness_HaltedIsFinalUntilReset :
    (∃ s : State, s.phase = .halted ∧ s.inbox = .step 0 0 :: []) ∧
      (∃ s : State, s.phase = .halted ∧ s.inbox = .reset :: []) :=
  ⟨⟨{ start with phase := .halted, inbox := [.step 0 0] }, by decide⟩,
    ⟨{ start with phase := .halted, inbox := [.reset] }, by decide⟩⟩

theorem witness_PhaseTransitions : (atPc 0x200).inbox = .step 3 5 :: [] := by decide

theorem witness_FaultsArePrecise : ∃ t, exec (.ret 0) start = .next t ∧ t.result = .fatal := ⟨_, rfl, rfl⟩

/-- Every fatal condition of an instruction is met by some state, and by some state it is not. -/
theorem witness_OnlyTheseInstructionsFault :
    Raises (.ret 1) start .stackUnderflow 0 ∧ Raises (.call 5) { start with sp := 16 } .stackOverflow 0x202 ∧
      Raises (.drw 0 0 2) { start with idx := 0xFFF } .memRange 0xFFF ∧
      Raises (.ldB 0) { start with idx := 0xFFE } .memRange 0xFFE ∧
      Raises (.ldMemVx 15) { start with idx := 0xFF1 } .memRange 0xFF1 ∧
      Raises (.ldVxMem 15) { start with idx := 0xFF1 } .memRange 0xFF1 ∧
      ¬ ∃ code info, Raises (.drw 0 0 1) { start with idx := 0xFFF } code info := by
  refine ⟨.ret _ _ rfl, .call _ _ rfl, .drw _ _ _ _ (by decide) ?_, .ldB _ _ ?_, .ldMemVx _ _ ?_, .ldVxMem _ _ ?_, ?_⟩
  iterate 4 · unfold RunsPastMemory; decide
  rintro ⟨_, _, h⟩
  cases h with
  | drw _ _ _ _ _ h => exact absurd h (by unfold RunsPastMemory; decide)

theorem witness_PcAfterEveryInstruction : ∃ t, exec (.skp 0) start = .next t ∧ t.result ≠ .fatal :=
  ⟨_, rfl, by decide⟩

theorem witness_InstructionsWriteOnlyTheirPieces : ∃ t, exec (.call 0x300) start = .next t ∧ t.result ≠ .fatal :=
  ⟨_, rfl, by decide⟩

theorem witness_KeysSeenOnlyByKeyInstructions :
    (∃ t, exec (.addI 3) start = .next t) ∧ (∀ x, Instr.addI 3 ≠ .skp x) ∧ (∀ x, Instr.addI 3 ≠ .sknp x) ∧
      (∀ x, Instr.addI 3 ≠ .ldVxK x) :=
  ⟨⟨_, rfl⟩, by simp, by simp, by simp⟩

theorem witness_RandomByteSeenOnlyByRnd :
    (∃ t, exec (.ldVxK 3) start = .next t) ∧ ∀ x kk, Instr.ldVxK 3 ≠ .rnd x kk :=
  ⟨⟨_, rfl⟩, by simp⟩

/-- Two states with one valid entry that differ in the entry at SP. -/
theorem witness_DeadStackEntriesUnobservable :
    ∃ s s' t : State, s ≠ s' ∧ AgreeOnLiveStack s s' ∧ exec (.ret 0) s = .next t :=
  ⟨{ start with sp := 1 }, { start with sp := 1, stack := start.stack.set 1 7 }, _, by decide,
    ⟨rfl, by decide⟩, rfl⟩

theorem witness_ReturnPopsOrUnderflows : (∃ s : State, s.sp.val ≠ 0) ∧ ∃ s : State, s.sp = 0 :=
  ⟨⟨{ start with sp := 16 }, by decide⟩, ⟨start, rfl⟩⟩

theorem witness_CallPushesOrOverflows : (∃ s : State, s.sp.val < 16) ∧ ∃ s : State, s.sp = 16 :=
  ⟨⟨{ start with sp := 15 }, by decide⟩, ⟨{ start with sp := 16 }, rfl⟩⟩

theorem witness_ReturnUndoesCall :
    ∃ s t u : State, s.sp.val < 16 ∧ exec (.call 0x300) s = .next t ∧ u.sp = t.sp ∧ u.stack = t.stack :=
  ⟨{ start with sp := 15 }, _, _, by decide, rfl, rfl, rfl⟩

theorem witness_SkipsOnRegister : (1 : Nibble) ≠ 0 := by decide

/-- The nibbles the decoder ignores, under each value of `DECODE_STRICT`. -/
theorem witness_ignored_nibbles : (false = false ∨ (3 : Nibble) = 0) ∧ (true = false ∨ (0 : Nibble) = 0) := by decide

theorem witness_UnrecognizedOnlyAdvancesPc : recognized false 0x8128 = false ∧ recognized true 0x5121 = false := by
  decide

theorem witness_AddImmediateWrapsWithoutFlag : (14 : Reg) ≠ 15 := by decide

/-- Both clauses of the flag-writing instructions: x other than 15, and x = 15 under each order. -/
theorem witness_flag_clauses :
    ((14 : Reg) ≠ 15 ∨ start.params.vfOrder = .destLast) ∧ ((14 : Reg) ≠ 15 ∨ start.params.vfOrder = .flagLast) ∧
      ((15 : Reg) ≠ 15 ∨ start.params.vfOrder = .destLast) ∧
      ∃ s : State, (15 : Reg) ≠ 15 ∨ s.params.vfOrder = .flagLast :=
  ⟨by decide, by decide, by decide, { start with params := { defaultParams with vfOrder := .flagLast } }, by decide⟩

theorem witness_AddSetsCarry : (14 : Reg) ≠ 15 ∨ start.params.vfOrder = .flagLast := witness_flag_clauses.2.1

theorem witness_SubtractSetsNoBorrow : (15 : Reg) ≠ 15 ∨ start.params.vfOrder = .destLast :=
  witness_flag_clauses.2.2.1

theorem witness_ShiftsTakeBitShiftedOut : (14 : Reg) ≠ 15 ∨ start.params.vfOrder = .destLast :=
  witness_flag_clauses.1

theorem witness_FlagAndResultWriteOrder :
    (14 : Reg) ≠ 15 ∧ start.params.vfOrder = .destLast ∧ ∃ s : State, s.params.vfOrder = .flagLast :=
  ⟨by decide, by decide, { start with params := { defaultParams with vfOrder := .flagLast } }, by decide⟩

/-- A state with I = `i`. -/
def atIdx (i : Word) : State := { start with idx := i }

theorem witness_DecimalStore :
    (atIdx 0xFFD).mem.wf = true ∧ (atIdx 0xFFD).idx.toNat % 4096 ≤ 0xFFD ∧
      (atIdx 0x1FFE).mem.wf = true ∧ (atIdx 0x1FFE).idx.toNat % 4096 > 0xFFD := by decide

theorem witness_RegisterStore :
    (atIdx 0xFF0).mem.wf = true ∧ (atIdx 0xFF0).idx.toNat % 4096 + (15 : Reg).val ≤ 0xFFF ∧
      (atIdx 0xFF1).mem.wf = true ∧ (atIdx 0xFF1).idx.toNat % 4096 + (15 : Reg).val > 0xFFF := by decide

theorem witness_RegisterLoad :
    (atIdx 0xFFF).idx.toNat % 4096 + (0 : Reg).val ≤ 0xFFF ∧
      (atIdx 0xFFF).idx.toNat % 4096 + (1 : Reg).val > 0xFFF := by decide

theorem witness_LoadRestoresStoredRegisters :
    ∃ s t u : State, s.mem.wf = true ∧ s.idx.toNat % 4096 + (15 : Reg).val ≤ 0xFFF ∧
      exec (.ldMemVx 15) s = .next t ∧ u.mem = t.mem ∧ u.idx = s.idx :=
  ⟨atIdx 0xFF0, _, _, by decide, by decide, rfl, rfl, rfl⟩

/-- Fx55 with x = 1 over the next instruction, as in program P8. -/
theorem witness_StoreIsSeenByNextFetch :
    (atIdx 0x202).mem.wf = true ∧ (atIdx 0x202).idx.toNat % 4096 + (1 : Reg).val ≤ 0xFFF ∧
      (0 : Reg).val + 1 ≤ (1 : Reg).val ∧ (atIdx 0x202).ea (0 : Reg).val = (atIdx 0x202).pc.toNat + 2 := by decide

theorem witness_MemoryReadAfterWrite : Memory.wf [(0x200, 1), (0xFFF, 2)] = true := by decide

/-- A state with the sprite row 0x81 at the top byte of memory, one pixel on at (0, 7), and I = `i`. -/
def spriteAt (i : Word) : State := withOn [(0, 7)] { start with idx := i, mem := [(0xFFF, 0x81)] }

theorem witness_DrawXorsSprite_range :
    (spriteAt 0xFFF).idx.toNat % 4096 + (1 : Nibble).toNat ≤ 0x1000 ∧
      ((2 : Nibble) ≠ 0 ∧ (spriteAt 0xFFF).idx.toNat % 4096 + (2 : Nibble).toNat > 0x1000) := by decide

/-- The sprite covers a pixel that is on and one that is off, and leaves others alone. -/
theorem witness_DrawXorsSprite :
    (SpriteCovers (spriteAt 0xFFF) 0 0 1 0 7 ∧ (spriteAt 0xFFF).fb.pixel 0 7 = true) ∧
      (SpriteCovers (spriteAt 0xFFF) 0 0 1 0 0 ∧ (spriteAt 0xFFF).fb.pixel 0 0 = false) ∧
      ¬ SpriteCovers (spriteAt 0xFFF) 0 0 1 1 0 := by
  refine ⟨⟨⟨0, by decide, 7, by decide, by decide⟩, by decide⟩, ⟨⟨0, by decide, 0, by decide, by decide⟩, by decide⟩, ?_⟩
  rintro ⟨k, hk, j, hj, -, hr, -⟩
  obtain rfl : k = 0 := by simpa using hk
  exact absurd hr (by decide)

/-- With no row there is no collision. -/
theorem witness_DrawXorsSprite_no_collision :
    ¬ ∃ r c, SpriteCovers (spriteAt 0xFFF) 0 0 0 r c ∧ (spriteAt 0xFFF).fb.pixel r.val c.val = true := by
  rintro ⟨_, _, ⟨k, hk, -⟩, -⟩
  exact absurd hk (by simp)

theorem witness_SecondDrawRestores :
    ∃ t u : State, exec (.drw 0 0 1) (spriteAt 0xFFF) = .next t ∧ t.result = .ok ∧ u.fb = t.fb ∧
      u.mem = (spriteAt 0xFFF).mem ∧ u.idx = (spriteAt 0xFFF).idx ∧ u.getV 0 = (spriteAt 0xFFF).getV 0 :=
  ⟨_, _, rfl, rfl, rfl, rfl, rfl, rfl⟩

/-- With no row no 1 bit falls on a pixel, so the second flag clause of the statement is met. -/
theorem witness_SecondDrawRestores_no_flag :
    (∃ t, exec (.drw 0 0 0) (spriteAt 0xFFF) = .next t ∧ t.result = .ok) ∧
      ¬ ∃ r c, SpriteCovers (spriteAt 0xFFF) 0 0 0 r c ∧ (spriteAt 0xFFF).fb.pixel r.val c.val = false := by
  refine ⟨⟨_, rfl, rfl⟩, ?_⟩
  rintro ⟨_, _, ⟨k, hk, -⟩, -⟩
  exact absurd hk (by simp)

theorem witness_WaitForKey : start.keys = 0 ∧ { start with keys := 0x8000 }.keys ≠ 0 := by decide

theorem witness_SkipsOnKey_codes :
    ((withV [(5, 0x0F)] start).getV 5).toNat ≤ 0xF ∧ ¬ ((withV [(5, 0x10)] start).getV 5).toNat ≤ 0xF := by decide

theorem witness_TickDecrementsTimers :
    (∃ s : State, s.inbox = .tick :: [] ∧ s.phase ≠ .halted ∧ s.phase = .empty) ∧
      ∃ s : State, s.inbox = .tick :: [] ∧ s.phase ≠ .halted ∧ s.phase = .running :=
  ⟨⟨{ State.reset with inbox := [.tick] }, by decide⟩, ⟨{ start with inbox := [.tick] }, by decide⟩⟩

theorem witness_ResetSetsEveryPiece :
    ∃ s : State, s.inbox = .reset :: [] ∧ s.params.resetRegs = .zero := ⟨{ start with inbox := [.reset] }, by decide⟩

/-- A program of exactly 3584 bytes, and one of 3585. -/
theorem witness_LoadWritesFontAndProgram (b : List Byte) :
    ∃ s : State, s.mem.wf = true ∧ s.phase = .empty ∧ s.inbox = .load b :: [] :=
  ⟨{ State.reset with inbox := [.load b] }, rfl, rfl, rfl⟩

theorem witness_LoadWritesFontAndProgram_sizes :
    (List.replicate 3584 (1 : Byte)).length ≤ 3584 ∧ (List.replicate 3585 (1 : Byte)).length > 3584 := by
  rw [List.length_replicate, List.length_replicate]
  decide

theorem witness_FirstStepRunsProgramEntry :
    ([0x12, 0x00] : List Byte).length ≤ 3584 ∧
      ∃ s : State, s.inbox = .reset :: .load [0x12, 0x00] :: .step 0 0 :: [] :=
  ⟨by decide, { start with inbox := [.reset, .load [0x12, 0x00], .step 0 0] }, rfl⟩

/-- The state after reset meets the invariants. -/
theorem reset_inv (rest : List Command) : Inv { State.reset with inbox := rest } := by
  refine ⟨by rfl, fun j h => ?_, fun _ j h => ?_, ?_, ?_, fun _ => ⟨rfl, rfl, rfl, rfl, rfl, rfl, rfl⟩⟩
  · exact absurd h (Nat.not_lt_zero _)
  · exact absurd h (Nat.not_lt_zero _)
  · show (0x200 : Word).toNat ≤ 0x10FE
    decide
  · show FaultCode.none ≠ .none ↔ Phase.empty = .halted
    decide

theorem witness_EveryStepKeepsInvariants : ∃ s t : State, Inv s ∧ step s = .next t :=
  ⟨{ State.reset with inbox := [.load [1]] }, _, reset_inv _, rfl⟩

theorem witness_EveryStepKeepsMemoryCanonical : ∃ s t : State, s.mem.wf = true ∧ step s = .next t :=
  ⟨{ State.reset with inbox := [.load [1]] }, _, rfl, rfl⟩

theorem witness_ParametersNeverChange : ∃ s t : State, step s = .next t :=
  ⟨{ State.reset with inbox := [.reset] }, _, rfl⟩

theorem witness_SelfJumpChangesNothing :
    ∃ s : State, Ended s ∧ s.phase = .running ∧ s.inbox = .step 0 0 :: [] :=
  ⟨{ start with mem := [(0x200, 0x12)], inbox := [.step 0 0] }, .inr ⟨rfl, by decide, 0x200, by decide, by decide⟩,
    rfl, rfl⟩

theorem witness_NoneChangesNothing :
    (∃ s : State, s.inbox = .none :: [] ∧ s.phase = .running) ∧
      ∃ s : State, s.inbox = .none :: [] ∧ s.phase ≠ .running :=
  ⟨⟨{ start with inbox := [.none] }, by decide⟩, ⟨{ State.reset with inbox := [.none] }, by decide⟩⟩

end Sys2Proof.Tests
end

section
/-!
SUPPORT. The frame rule of 00 R14 over all instructions: writes compose in the order the rules make them, each kind of
write has its frame, and every instruction ends either in the fatal state or inside the frame of its own rule.
-/

namespace Sys2Proof.Machine

/-! ## Frames of successive writes -/

/-- Two writes in a row write the pieces of both; the later write is named first, as `Written` names PC first. -/
theorem FrameExcept.andThen {W W' : Piece → Prop} {s t u : State} (h : FrameExcept W s t) (h' : FrameExcept W' t u) :
    FrameExcept (fun p => W' p ∨ W p) s u :=
  (h.mono fun _ => .inr).trans (h'.mono fun _ => .inl)

/-- The result code and the count of draws are no pieces of the spec's state. -/
theorem frame_result_draws (W : Piece → Prop) (r : ResultCode) (d : Nat) (s : State) :
    FrameExcept W s { s with result := r, draws := d } := by
  refine ⟨fun p _ => ?_, rfl, rfl, rfl, rfl⟩
  cases p <;> rfl

theorem frame_sp (n : Fin 17) (s : State) : FrameExcept (· = .sp) s { s with sp := n } := by
  refine ⟨fun p hp => ?_, rfl, rfl, rfl, rfl⟩
  cases p with
  | sp => exact absurd rfl hp
  | _ => rfl

/-- Storing one stack entry writes that entry only. -/
theorem frame_stackEntry {n : Nat} (h : n < 16) (a : Word) (s : State) :
    FrameExcept (fun p => ∃ j : Fin 16, j.val = n ∧ p = .stack j) s { s with stack := s.stack.set n a h } := by
  refine ⟨fun p hp => ?_, rfl, rfl, rfl, rfl⟩
  cases p with
  | stack j =>
    have hne : n ≠ j.val := fun e => hp ⟨j, e.symm, rfl⟩
    exact congrArg BitVec.toNat (Vector.getElem_set_ne h j.isLt hne)
  | _ => rfl

/-- A block transfer writes I only under `LS_INCREMENT_I = X_PLUS_1` (42 R144, R145). -/
theorem frame_indexAfterBlock (x : Reg) (s : State) :
    FrameExcept (fun p => s.params.lsIncrementI = .xPlus1 ∧ p = .idx) s { s with idx := indexAfterBlock x s } := by
  unfold indexAfterBlock
  split
  · exact frame_result_draws _ s.result s.draws s
  · next hx => exact (frame_idx _ s).mono fun _ hp => ⟨hx, hp⟩

/-- Fx65 leaves the registers above V[x] alone (42 R145). -/
theorem frame_loadedRegisters (x : Reg) (s : State) :
    FrameExcept (fun p => ∃ r : Reg, r ≤ x ∧ p = .v r) s { s with v := loadedRegisters x s } :=
  frame_v fun r hr => by rw [loadedRegisters_getElem, if_neg hr]

/-! ## What an instruction can end in -/

/-- `t` is a state in which instruction `i` may end from `s`: the fatal state, or one that is not fatal and differs only
in the pieces the rule of `i` writes. -/
def EndsInFrame (i : Instr) (s t : State) : Prop :=
  (∃ f, t = raiseFatal f (encode i) s) ∨ (t.result ≠ .fatal ∧ FrameExcept (Written i s) s t)

theorem endsInFrame_raiseFatal (f : Fatal) (i : Instr) (s : State) : EndsInFrame i s (raiseFatal f (encode i) s) :=
  .inl ⟨f, rfl⟩

/-- An instruction that writes nothing but PC. -/
theorem endsInFrame_pc {i : Instr} {s : State} (w : Word) (hW : ∀ p, p = .pc → Written i s p) :
    EndsInFrame i s (complete w s) :=
  .inr ⟨by simp, (frame_complete w s).mono hW⟩

/-- An instruction that makes its writes and then sets PC. -/
theorem endsInFrame_complete {i : Instr} {s u : State} {W : Piece → Prop} (w : Word) (hu : FrameExcept W s u)
    (hW : ∀ p, p = .pc ∨ W p → Written i s p) : EndsInFrame i s (complete w u) :=
  .inr ⟨by simp, (hu.andThen (frame_complete w u)).mono hW⟩

/-- The check before the writes adds only the fatal end (30 R83). -/
theorem commitUnless_endsInFrame {i : Instr} {s t : State} (check : Option Fatal) (h : EndsInFrame i s t) :
    ∃ u, commitUnless check i s t = .next u ∧ EndsInFrame i s u := by
  cases check with
  | none => exact ⟨t, rfl, h⟩
  | some f => exact ⟨_, rfl, endsInFrame_raiseFatal f i s⟩

/-- An instruction that writes VF and V[x] by 41 R124. -/
theorem endsInFrame_flag {i : Instr} {s : State} {x : Reg} (flag : Bool) (res : Byte)
    (hW : ∀ p, p = .pc ∨ p = .v x ∨ p = .v 15 → Written i s p) :
    EndsInFrame i s (complete s.pcNext (writeFlagAndDest x flag res s)) :=
  endsInFrame_complete _ ((frame_writeFlagAndDest x flag res s).mono fun p hp => by simpa using hp) hW

/-- Every instruction ends in the fatal state or in the frame of its rule (00 R14). -/
theorem exec_endsInFrame (i : Instr) (s : State) : ∃ t, exec i s = .next t ∧ EndsInFrame i s t := by
  cases i with
  | jp | jpV0 | seImm | sneImm | seReg | sneReg | skp | sknp | unrecognized =>
    exact ⟨_, rfl, endsInFrame_pc _ fun _ => id⟩
  | ldImm x | addImm x | ldReg x | or x | and x | xor x | rnd x | ldVxDt x =>
    exact ⟨_, rfl, endsInFrame_complete _ (frame_setV x _ s) fun _ => id⟩
  | addReg | sub | shr | subn | shl => exact ⟨_, rfl, endsInFrame_flag _ _ fun _ => id⟩
  | ldI | addI | ldF => exact ⟨_, rfl, endsInFrame_complete _ (frame_idx _ s) fun _ => id⟩
  | ldDtVx => exact ⟨_, rfl, endsInFrame_complete _ (frame_dt _ s) fun _ => id⟩
  | ldStVx => exact ⟨_, rfl, endsInFrame_complete _ (frame_st _ s) fun _ => id⟩
  | cls => exact ⟨_, rfl, endsInFrame_complete _ (frame_fb _ s) fun _ => id⟩
  | ret x =>
    by_cases h : s.sp.val = 0
    · exact ⟨_, exec_ret_underflow x h, endsInFrame_raiseFatal ..⟩
    · exact ⟨_, exec_ret_ok x h, endsInFrame_complete _ (frame_sp _ s) fun _ => id⟩
  | call nnn =>
    by_cases h : s.sp.val < 16
    · have pushed := (frame_stackEntry h s.pcNext s).andThen (frame_sp ⟨s.sp.val + 1, by omega⟩ _)
      exact ⟨_, exec_call_ok nnn h, endsInFrame_complete _ pushed fun _ => id⟩
    · exact ⟨_, exec_call_overflow nnn h, endsInFrame_raiseFatal ..⟩
  | ldVxK x =>
    by_cases h : s.keys = 0
    · exact ⟨_, exec_ldVxK_wait x h, .inr ⟨by simp, frame_result_draws _ .wait s.draws s⟩⟩
    · obtain ⟨k, -, hk⟩ := exec_ldVxK_take x h
      have taken := (frame_result_draws _ s.result (s.draws + 1) s).trans (frame_setV x (BitVec.ofNat 8 k.val) _)
      exact ⟨_, hk, endsInFrame_complete _ taken fun _ => id⟩
  | ldB x => exact commitUnless_endsInFrame _ (endsInFrame_complete _ (frame_store _ s) fun _ => id)
  | ldMemVx x =>
    have stored := frame_store (registerBlock x s) s
    simp only [registerBlock_length, Nat.lt_succ_iff] at stored
    exact commitUnless_endsInFrame _
      (endsInFrame_complete _ (stored.andThen (frame_indexAfterBlock x _)) fun _ => id)
  | ldVxMem x =>
    exact commitUnless_endsInFrame _
      (endsInFrame_complete _ ((frame_loadedRegisters x s).andThen (frame_indexAfterBlock x _)) fun _ => id)
  | drw x y n =>
    exact commitUnless_endsInFrame _
      (endsInFrame_complete _ ((frame_fb _ s).andThen (frame_setV vf _ _)) fun _ => id)

/-- Settles O15: the next state is the fatal one, whose frame `raisedFrom_raiseFatal` gives, or one in the frame of the
instruction's rule; the result code tells which. -/
theorem instructionsWriteOnlyTheirPieces : Obligations.InstructionsWriteOnlyTheirPieces := by
  intro i s t h
  obtain ⟨u, hu, hend⟩ := exec_endsInFrame i s
  obtain rfl : u = t := Host.Outcome.next.inj (hu.symm.trans h)
  rcases hend with ⟨f, rfl⟩ | ⟨hresult, hframe⟩
  · obtain ⟨-, -, -, -, -, -, hfault⟩ := raisedFrom_raiseFatal f (encode i) s
    exact ⟨fun hne => absurd rfl hne, fun _ => hfault⟩
  · exact ⟨fun _ => hframe, fun hfatal => absurd hfatal hresult⟩

end Sys2Proof.Machine
end

section
/-!
SUPPORT. The fetch of a STEP: what its checks answer, in their order, and what the STEP then does (spec 30 R70, R81).
-/

namespace Sys2Proof.Machine

/-- The fetched word has the byte at the lower address as its high byte (20 R53). -/
theorem bigEndian_toNat (high low : Byte) : (bigEndian high low).toNat = high.toNat * 256 + low.toNat := by
  rw [bigEndian, BitVec.toNat_cast, BitVec.toNat_append, ← Nat.shiftLeft_add_eq_or_of_lt low.isLt, Nat.shiftLeft_eq]

/-! ## The checks of a fetch, one equation per outcome -/

theorem fetchCheck_odd {s : State} (hodd : s.pc.toNat % 2 = 1 ∧ s.params.oddPcPolicy = .fault) :
    fetchCheck s = some ⟨.fetchOdd, s.pc⟩ := if_pos hodd

theorem fetchCheck_range {s : State} (hodd : ¬ (s.pc.toNat % 2 = 1 ∧ s.params.oddPcPolicy = .fault))
    (hrange : s.pc.toNat > 0xFFE) : fetchCheck s = some ⟨.fetchRange, s.pc⟩ := by
  rw [fetchCheck, if_neg hodd, if_pos hrange]

theorem fetchCheck_low {s : State} (hodd : ¬ (s.pc.toNat % 2 = 1 ∧ s.params.oddPcPolicy = .fault))
    (hrange : ¬ s.pc.toNat > 0xFFE) (hlow : s.pc.toNat < Config.entry ∧ s.params.lowExecPolicy = .fault) :
    fetchCheck s = some ⟨.fetchLow, s.pc⟩ := by
  rw [fetchCheck, if_neg hodd, if_neg hrange, if_pos hlow]

theorem fetchCheck_pass {s : State} (hodd : ¬ (s.pc.toNat % 2 = 1 ∧ s.params.oddPcPolicy = .fault))
    (hrange : ¬ s.pc.toNat > 0xFFE) (hlow : ¬ (s.pc.toNat < Config.entry ∧ s.params.lowExecPolicy = .fault)) :
    fetchCheck s = none := by
  rw [fetchCheck, if_neg hodd, if_neg hrange, if_neg hlow]

/-! ## A STEP in RUNNING -/

section
variable {s : State} {keys : Word} {rnd : Byte} {rest : List Command}

/-- In RUNNING a STEP is accepted. -/
theorem step_running (hphase : s.phase = .running) (hinbox : s.inbox = .step keys rnd :: rest) :
    step s = stepInstr keys rnd { s with inbox := rest } :=
  step_accepted hinbox (by rw [hphase]; rfl)

/-- A STEP whose fetch fails raises the fault of the check, with no word fetched. -/
theorem step_raises_of_fetchCheck {f : Fatal} (hphase : s.phase = .running)
    (hinbox : s.inbox = .step keys rnd :: rest) (hfetch : fetchCheck s = some f) :
    ∃ t, step s = .next t ∧ RaisedFrom { s with inbox := rest, keys := keys, rnd := rnd } t f.code f.info 0 :=
  ⟨_, (step_running hphase hinbox).trans (stepInstr_fault hfetch), raisedFrom_raiseFatal f 0 _⟩

/-- A STEP whose fetch passes runs the instruction at PC. -/
theorem step_exec_of_fetchCheck (hphase : s.phase = .running) (hinbox : s.inbox = .step keys rnd :: rest)
    (hfetch : fetchCheck s = none) :
    step s = exec (fetchInstr s) { s with inbox := rest, keys := keys, rnd := rnd } :=
  (step_running hphase hinbox).trans (stepInstr_exec hfetch)

end

/-- Settles O8: the branches of the statement are the outcomes of the checks, and after each the STEP raises the fault
or runs the instruction. -/
theorem fetchChecksInOrder : Obligations.FetchChecksInOrder := by
  intro s keys rnd rest hphase hinbox u
  split
  · next hodd => exact step_raises_of_fetchCheck hphase hinbox (fetchCheck_odd hodd)
  next hodd =>
  split
  · next hrange => exact step_raises_of_fetchCheck hphase hinbox (fetchCheck_range hodd hrange)
  next hrange =>
  split
  · next hlow => exact step_raises_of_fetchCheck hphase hinbox (fetchCheck_low hodd hrange hlow)
  next hlow =>
  exact ⟨_, bigEndian_toNat _ _, step_exec_of_fetchCheck hphase hinbox (fetchCheck_pass hodd hrange hlow)⟩

end Sys2Proof.Machine
end

section
/-!
SUPPORT. Control transfer and conditional skips: the words of their instructions decode to them, the skip test has
two targets, and each instruction ends with PC at its target or in the fatal state (spec 30 R72-R75, 40 R93-R100).
-/

namespace Sys2Proof.Machine

/-! ## The words of the control-flow instructions (30 R72-R75) -/

@[simp] theorem regNibble_toFin (x : Reg) : (regNibble x).toFin = x := rfl

/-- The zero check of `DECODE_STRICT` lets a word pass when it is off, or when the nibble is 0. -/
theorem strictCheck_passes {strict : Bool} {n : Nibble} (h : strict = false ∨ n = 0) :
    (strict && n != 0#4) = false := by
  rcases h with rfl | rfl
  · exact Bool.false_and _
  · exact Bool.and_false _

theorem decode_jp (nnn : Addr) : Decodes (wordNnn 0x1 nnn) (.jp nnn) := fun _ => by simp [decode]

theorem decode_call (nnn : Addr) : Decodes (wordNnn 0x2 nnn) (.call nnn) := fun _ => by simp [decode]

theorem decode_jpV0 (nnn : Addr) : Decodes (wordNnn 0xB nnn) (.jpV0 nnn) := fun _ => by simp [decode]

theorem decode_seImm (x : Reg) (kk : Byte) : Decodes (wordXkk 0x3 (regNibble x) kk) (.seImm x kk) :=
  fun _ => by simp [decode]

theorem decode_sneImm (x : Reg) (kk : Byte) : Decodes (wordXkk 0x4 (regNibble x) kk) (.sneImm x kk) :=
  fun _ => by simp [decode]

theorem decode_ret {strict : Bool} {x : Nibble} (h : strict = false ∨ x = 0) :
    decode strict (wordXkk 0x0 x 0xEE) = .ret x := by
  have hpass := strictCheck_passes h
  simp [decode, decodeFamily0, hpass]

theorem decode_family5 {w : Word} (h : familyOf w = 0x5) (strict : Bool) :
    decode strict w = decodeRegSkip strict .seReg w := by simp [decode, h]

theorem decode_family9 {w : Word} (h : familyOf w = 0x9) (strict : Bool) :
    decode strict w = decodeRegSkip strict .sneReg w := by simp [decode, h]

theorem decodeRegSkip_passes {strict : Bool} {n : Nibble} (h : strict = false ∨ n = 0)
    (make : Reg → Reg → Nibble → Instr) (f : Nibble) (x y : Reg) :
    decodeRegSkip strict make (wordXyn f (regNibble x) (regNibble y) n) = make x y n := by
  have hpass := strictCheck_passes h
  simp [decodeRegSkip, hpass]

theorem decodeRegSkip_strict {n : Nibble} (h : n ≠ 0) (make : Reg → Reg → Nibble → Instr) (f x y : Nibble) :
    decodeRegSkip true make (wordXyn f x y n) = .unrecognized (wordXyn f x y n) :=
  if_pos (by simpa using h)

/-! ## Where an instruction ends -/

/-- The frame of an instruction that ends with the result OK is the one of its rule (00 R14). -/
theorem frame_of_exec_ok {i : Instr} {s t : State} {W : Piece → Prop} (h : exec i s = .next t)
    (hresult : t.result = .ok) (hW : ∀ p, Written i s p → W p) : FrameExcept W s t :=
  ((instructionsWriteOnlyTheirPieces i s t h).1 (by simp [hresult])).mono hW

/-- A call that pushes writes PC, SP and the entry at the old SP (40 R95). -/
theorem written_call {nnn : Addr} {s : State} (h : s.sp.val < 16) {p : Piece} (hp : Written (.call nnn) s p) :
    p ∈ [.pc, .sp, .stack ⟨s.sp.val, h⟩] := by
  rcases hp with rfl | rfl | ⟨j, hj, rfl⟩
  · simp
  · simp
  · simp [← hj]

/-- PC after a skip taken on equality (40 R96, R98). -/
theorem pcSkip_beq (a b : Byte) (s : State) : s.pcSkip (a == b) = if a = b then s.pc + 4 else s.pc + 2 := by
  by_cases h : a = b <;> simp [State.pcSkip, h]

/-- PC after a skip taken on inequality (40 R97, R99). -/
theorem pcSkip_bne (a b : Byte) (s : State) : s.pcSkip (a != b) = if a = b then s.pc + 2 else s.pc + 4 := by
  by_cases h : a = b <;> simp [State.pcSkip, h]

/-! ## The statements -/

/-- Settles O20: a pop gives the top entry and lowers SP, or underflows. -/
theorem returnPopsOrUnderflows : Obligations.ReturnPopsOrUnderflows := by
  refine fun x s => ⟨fun _ => decode_ret, fun h => ?_, fun h => ?_⟩
  · have hexec := exec_ret_ok x h
    exact ⟨_, hexec, rfl, rfl, rfl, frame_of_exec_ok hexec rfl fun p hp => by simpa [Written] using hp⟩
  · exact ⟨_, exec_ret_underflow x (by rw [h]; rfl), raisedFrom_raiseFatal ..⟩

/-- Settles O21: the jump is the end of a step at the zero-extended address. -/
theorem jumpSetsOnlyPc : Obligations.JumpSetsOnlyPc :=
  fun nnn s => ⟨decode_jp nnn, _, rfl, zextAddr_toNat nnn, rfl, frame_complete _ s⟩

/-- Settles O22: a push with room stores the return address at SP and raises it; without room it overflows. -/
theorem callPushesOrOverflows : Obligations.CallPushesOrOverflows := by
  refine fun nnn s => ⟨decode_call nnn, fun h => ?_, fun h => ?_⟩
  · have hexec := exec_call_ok nnn h
    have hentry : (s.stack.set s.sp.val s.pcNext h)[s.sp.val] = s.pc + 2 := Vector.getElem_set_self h
    exact ⟨_, hexec, zextAddr_toNat nnn, rfl, hentry, rfl, frame_of_exec_ok hexec rfl fun _ => written_call h⟩
  · exact ⟨_, exec_call_overflow nnn (by simp [h]), raisedFrom_raiseFatal ..⟩

/-- Settles O24: the two instructions skip on the two outcomes of one comparison. -/
theorem skipsOnImmediate : Obligations.SkipsOnImmediate :=
  fun x kk s => ⟨decode_seImm x kk, decode_sneImm x kk,
    ⟨_, rfl, pcSkip_beq (s.getV x) kk s, rfl, frame_complete _ s⟩,
    ⟨_, rfl, pcSkip_bne (s.getV x) kk s, rfl, frame_complete _ s⟩⟩

/-- Settles O25: the skips do not look at `n`, and the decoder looks at it only in the zero check. -/
theorem skipsOnRegister : Obligations.SkipsOnRegister := by
  intro x y n s
  have h5 := decode_family5 (familyOf_wordXyn 0x5 (regNibble x) (regNibble y) n)
  have h9 := decode_family9 (familyOf_wordXyn 0x9 (regNibble x) (regNibble y) n)
  refine ⟨⟨_, rfl, pcSkip_beq (s.getV x) (s.getV y) s, rfl, frame_complete _ s⟩,
    ⟨_, rfl, pcSkip_bne (s.getV x) (s.getV y) s, rfl, frame_complete _ s⟩, fun strict h => ?_, fun h => ?_⟩
  · exact ⟨(h5 strict).trans (decodeRegSkip_passes h .seReg 0x5 x y),
      (h9 strict).trans (decodeRegSkip_passes h .sneReg 0x9 x y)⟩
  · exact ⟨(h5 true).trans (decodeRegSkip_strict h ..), (h9 true).trans (decodeRegSkip_strict h ..)⟩

/-- Settles O26: the sum is exact, and its operands bound it by 0xFFF + 0xFF. -/
theorem jumpWithOffsetAddsV0 : Obligations.JumpWithOffsetAddsV0 := by
  intro nnn s
  have hsum := jumpV0Target_toNat nnn s
  have hbound : (jumpV0Target nnn s).toNat ≤ 0x10FE := by
    have := nnn.isLt
    have := (s.getV 0).isLt
    omega
  exact ⟨decode_jpV0 nnn, _, rfl, hsum, hbound, rfl, frame_complete _ s⟩

end Sys2Proof.Machine
end

section
/-!
SUPPORT. Register and arithmetic instructions: their words decode to them, and the two ways they end, with one register
written or with VF and a register written, say what the registers then hold (spec 30 R74, R76, 41 R111-R124).
-/

namespace Sys2Proof.Machine

/-! ## The words of the register and arithmetic instructions (30 R74, R76) -/

theorem decode_ldImm (x : Reg) (kk : Byte) : Decodes (wordXkk 0x6 (regNibble x) kk) (.ldImm x kk) :=
  fun _ => by simp [decode]

theorem decode_addImm (x : Reg) (kk : Byte) : Decodes (wordXkk 0x7 (regNibble x) kk) (.addImm x kk) :=
  fun _ => by simp [decode]

theorem decode_rnd (x : Reg) (kk : Byte) : Decodes (wordXkk 0xC (regNibble x) kk) (.rnd x kk) :=
  fun _ => by simp [decode]

theorem decode_family8 {w : Word} (h : familyOf w = 0x8) (strict : Bool) : decode strict w = decodeFamily8 w := by
  simp [decode, h]

/-- `DECODE_STRICT` does not show in family 8. -/
theorem decodes_of_decodeFamily8 {x y n : Nibble} {i : Instr} (h : decodeFamily8 (wordXyn 0x8 x y n) = i) :
    Decodes (wordXyn 0x8 x y n) i :=
  fun strict => (decode_family8 (familyOf_wordXyn 0x8 x y n) strict).trans h

theorem decode_ldReg (x y : Reg) : Decodes (wordXyn 0x8 (regNibble x) (regNibble y) 0x0) (.ldReg x y) :=
  decodes_of_decodeFamily8 (by simp [decodeFamily8])

theorem decode_or (x y : Reg) : Decodes (wordXyn 0x8 (regNibble x) (regNibble y) 0x1) (.or x y) :=
  decodes_of_decodeFamily8 (by simp [decodeFamily8])

theorem decode_and (x y : Reg) : Decodes (wordXyn 0x8 (regNibble x) (regNibble y) 0x2) (.and x y) :=
  decodes_of_decodeFamily8 (by simp [decodeFamily8])

theorem decode_xor (x y : Reg) : Decodes (wordXyn 0x8 (regNibble x) (regNibble y) 0x3) (.xor x y) :=
  decodes_of_decodeFamily8 (by simp [decodeFamily8])

theorem decode_addReg (x y : Reg) : Decodes (wordXyn 0x8 (regNibble x) (regNibble y) 0x4) (.addReg x y) :=
  decodes_of_decodeFamily8 (by simp [decodeFamily8])

theorem decode_sub (x y : Reg) : Decodes (wordXyn 0x8 (regNibble x) (regNibble y) 0x5) (.sub x y) :=
  decodes_of_decodeFamily8 (by simp [decodeFamily8])

theorem decode_subn (x y : Reg) : Decodes (wordXyn 0x8 (regNibble x) (regNibble y) 0x7) (.subn x y) :=
  decodes_of_decodeFamily8 (by simp [decodeFamily8])

/-! ## Bytes -/

/-- A flag read as a number. -/
theorem flagByte_decide_toNat (p : Prop) [Decidable p] : (flagByte (decide p)).toNat = if p then 1 else 0 := by
  by_cases h : p <;> simp [flagByte, h]

/-- The difference of two bytes is the integer difference modulo 256. -/
theorem sub_toNat_emod (a b : Byte) : ((a - b).toNat : Int) = ((a.toNat : Int) - b.toNat) % 256 := by
  have hb := b.isLt
  rw [BitVec.toNat_sub]
  omega

/-! ## The order of the flag and the result (41 R124) -/

/-- Writes to two registers commute. -/
theorem setV_comm {x r : Reg} (h : x ≠ r) (b c : Byte) (s : State) :
    (s.setV x b).setV r c = (s.setV r c).setV x b := by
  simp [State.setV, Vector.set_comm _ _ (Fin.val_ne_of_ne h)]

/-- With a destination other than VF, `VF_ORDER` does not show. -/
theorem writeFlagAndDest_of_ne {x : Reg} (h : x ≠ 15) (flag : Bool) (res : Byte) (s : State) :
    writeFlagAndDest x flag res s = (s.setV vf (flagByte flag)).setV x res := by
  unfold writeFlagAndDest
  split
  · rfl
  · exact setV_comm h ..

/-! ## The two ways these instructions end -/

/-- A register outside the frame keeps its byte. -/
theorem FrameExcept.getV_eq {W : Piece → Prop} {s t : State} {r : Reg} (h : FrameExcept W s t) (hr : ¬ W (.v r)) :
    t.getV r = s.getV r := BitVec.eq_of_toNat_eq (h.1 (.v r) hr)

/-- An instruction whose only result is a register. -/
theorem finishV_next (x : Reg) (b : Byte) (s : State) :
    ∃ t, finishV x b s = .next t ∧ t.getV x = b ∧ t.pc = s.pc + 2 ∧ t.result = .ok ∧
      FrameExcept (· ∈ [.pc, .v x]) s t := by
  have hframe := (frame_setV x b s).andThen (frame_complete s.pcNext _)
  exact ⟨_, rfl, getV_setV_same x b s, rfl, rfl, hframe.mono fun p hp => by simpa using hp⟩

/-- The same with the written byte given bit by bit. -/
theorem finishV_next_bits {x : Reg} {b : Byte} {s : State} {bit : Nat → Bool} (hbit : ∀ k, b.getLsbD k = bit k) :
    ∃ t, finishV x b s = .next t ∧ (∀ k, k < 8 → (t.getV x).getLsbD k = bit k) ∧ t.pc = s.pc + 2 ∧ t.result = .ok ∧
      FrameExcept (· ∈ [.pc, .v x]) s t := by
  obtain ⟨t, hnext, hval, hrest⟩ := finishV_next x b s
  exact ⟨t, hnext, fun k _ => by rw [hval, hbit], hrest⟩

/-- An instruction whose results are a register and VF; for x = 0xF only the later write is seen. -/
theorem finishFlag_next (x : Reg) (flag : Bool) (res : Byte) (s : State) :
    ∃ t, finishFlag x flag res s = .next t ∧
      (x ≠ 15 ∨ s.params.vfOrder = .destLast → t.getV x = res) ∧
      (x ≠ 15 ∨ s.params.vfOrder = .flagLast → t.getV 15 = flagByte flag) ∧
      t.pc = s.pc + 2 ∧ t.result = .ok ∧ FrameExcept (· ∈ [.pc, .v x, .v 15]) s t := by
  have hframe := (frame_writeFlagAndDest x flag res s).andThen (frame_complete s.pcNext _)
  exact ⟨_, rfl, fun h => writeFlagAndDest_dest h flag res, fun h => writeFlagAndDest_flag h flag res, rfl, rfl,
    hframe.mono fun p hp => by simpa using hp⟩

/-- A subtraction of either operand order: the difference of the operands and their no-borrow flag. -/
theorem finishFlag_difference (x : Reg) (a b : Byte) (s : State) :
    ∃ t, finishFlag x (noBorrow a b) (a - b) s = .next t ∧
      (x ≠ 15 ∨ s.params.vfOrder = .destLast → ((t.getV x).toNat : Int) = ((a.toNat : Int) - b.toNat) % 256) ∧
      (x ≠ 15 ∨ s.params.vfOrder = .flagLast → (t.getV 15).toNat = if a.toNat ≥ b.toNat then 1 else 0) ∧
      t.pc = s.pc + 2 ∧ t.result = .ok ∧ FrameExcept (· ∈ [.pc, .v x, .v 15]) s t := by
  obtain ⟨t, hnext, hdest, hflag, hrest⟩ := finishFlag_next x (noBorrow a b) (a - b) s
  refine ⟨t, hnext, fun h => ?_, fun h => ?_, hrest⟩
  · rw [hdest h, sub_toNat_emod]
  · rw [hflag h, noBorrow, flagByte_decide_toNat]

/-! ## The statements -/

/-- Settles O27: both loads end with one register written. -/
theorem loadsOfRegisters : Obligations.LoadsOfRegisters :=
  fun x y kk s => ⟨decode_ldImm x kk, decode_ldReg x y, finishV_next x kk s, finishV_next x (s.getV y) s⟩

/-- Settles O28: the sum is written to V[x] alone, so VF keeps its byte when it is not the destination. -/
theorem addImmediateWrapsWithoutFlag : Obligations.AddImmediateWrapsWithoutFlag := by
  intro x kk s
  obtain ⟨t, hnext, hval, hpc, hresult, hframe⟩ := finishV_next x (s.getV x + kk) s
  have hsum : (t.getV x).toNat = ((s.getV x).toNat + kk.toNat) % 256 := by rw [hval, BitVec.toNat_add]
  exact ⟨decode_addImm x kk, t, hnext, hsum, fun hx => hframe.getV_eq (by simp [hx.symm]), hpc, hresult, hframe⟩

/-- Settles O29: each operation writes V[x] alone, with the bits of its operator. -/
theorem logicOperations : Obligations.LogicOperations :=
  fun x y _ => ⟨decode_or x y, decode_and x y, decode_xor x y, finishV_next_bits fun _ => BitVec.getLsbD_or,
    finishV_next_bits fun _ => BitVec.getLsbD_and, finishV_next_bits fun _ => BitVec.getLsbD_xor⟩

/-- Settles O30: the flag is the test on the exact sum, and each of the two writes is seen where it survives. -/
theorem addSetsCarry : Obligations.AddSetsCarry := by
  intro x y s sum
  obtain ⟨t, hnext, hdest, hflag, hrest⟩ :=
    finishFlag_next x (carryOut (s.getV x) (s.getV y)) (s.getV x + s.getV y) s
  refine ⟨decode_addReg x y, t, hnext, fun h => ?_, fun h => ?_, hrest⟩
  · rw [hdest h, BitVec.toNat_add]
  · rw [hflag h, carryOut, flagByte_decide_toNat]

/-- Settles O31: the two instructions are one subtraction with its operands exchanged. -/
theorem subtractSetsNoBorrow : Obligations.SubtractSetsNoBorrow :=
  fun x y s => ⟨decode_sub x y, decode_subn x y, finishFlag_difference x (s.getV x) (s.getV y) s,
    finishFlag_difference x (s.getV y) (s.getV x) s⟩

/-- Settles O33: for x other than 0xF the two writes commute; for x = 0xF the later one stands. -/
theorem flagAndResultWriteOrder : Obligations.FlagAndResultWriteOrder := by
  intro x flag res s t
  refine ⟨fun hx => ⟨writeFlagAndDest_flag (.inl hx) flag res, writeFlagAndDest_dest (.inl hx) flag res⟩,
    fun hlast => writeFlagAndDest_dest (.inr hlast) flag res,
    fun hlast => writeFlagAndDest_flag (.inr hlast) flag res, fun order hx => ?_, frame_writeFlagAndDest x flag res s⟩
  rw [writeFlagAndDest_of_ne hx, show t = _ from writeFlagAndDest_of_ne hx flag res s]
  rfl

/-- Settles O34: V[x] alone is written, with the masked byte. -/
theorem randomIsMasked : Obligations.RandomIsMasked :=
  fun x kk _ => ⟨decode_rnd x kk, finishV_next_bits fun _ => BitVec.getLsbD_and⟩

end Sys2Proof.Machine
end

section
/-!
SUPPORT. Index register and memory instructions: their words decode to them, I after a write of I, and what memory and
the registers hold after a block transfer (spec 30 R78, 42 R140-R145).
-/

namespace Sys2Proof.Machine

/-! ## The words of the index and memory instructions (30 R74, R78) -/

theorem decode_ldI (nnn : Addr) : Decodes (wordNnn 0xA nnn) (.ldI nnn) := fun _ => by simp [decode]

theorem decode_familyF {w : Word} (h : familyOf w = 0xF) (strict : Bool) : decode strict w = decodeFamilyF w := by
  simp [decode, h]

/-- `DECODE_STRICT` does not show in family 0xF. -/
theorem decodes_of_decodeFamilyF {x : Nibble} {kk : Byte} {i : Instr} (h : decodeFamilyF (wordXkk 0xF x kk) = i) :
    Decodes (wordXkk 0xF x kk) i :=
  fun strict => (decode_familyF (familyOf_wordXkk 0xF x kk) strict).trans h

theorem decode_addI (x : Reg) : Decodes (wordXkk 0xF (regNibble x) 0x1E) (.addI x) :=
  decodes_of_decodeFamilyF (by simp [decodeFamilyF])

theorem decode_ldF (x : Reg) : Decodes (wordXkk 0xF (regNibble x) 0x29) (.ldF x) :=
  decodes_of_decodeFamilyF (by simp [decodeFamilyF])

theorem decode_ldB (x : Reg) : Decodes (wordXkk 0xF (regNibble x) 0x33) (.ldB x) :=
  decodes_of_decodeFamilyF (by simp [decodeFamilyF])

theorem decode_ldMemVx (x : Reg) : Decodes (wordXkk 0xF (regNibble x) 0x55) (.ldMemVx x) :=
  decodes_of_decodeFamilyF (by simp [decodeFamilyF])

theorem decode_ldVxMem (x : Reg) : Decodes (wordXkk 0xF (regNibble x) 0x65) (.ldVxMem x) :=
  decodes_of_decodeFamilyF (by simp [decodeFamilyF])

/-! ## I -/

/-- An instruction whose only result is I, the written word given as a number. -/
theorem finishIndex_next {w : Word} {n : Nat} (hw : w.toNat = n) (s : State) :
    ∃ t, finishIndex w s = .next t ∧ t.idx.toNat = n ∧ t.pc = s.pc + 2 ∧ t.result = .ok ∧
      FrameExcept (· ∈ [.pc, .idx]) s t := by
  have hframe := (frame_idx w s).andThen (frame_complete s.pcNext _)
  exact ⟨_, rfl, hw, rfl, rfl, hframe.mono fun p hp => by simpa using hp⟩

/-- I after a block transfer, by `LS_INCREMENT_I` (42 R144, R145). -/
theorem indexAfterBlock_toNat (x : Reg) (s : State) :
    (indexAfterBlock x s).toNat = match s.params.lsIncrementI with
      | .unchanged => s.idx.toNat
      | .xPlus1 => (s.idx.toNat + x.val + 1) % 65536 := by
  unfold indexAfterBlock
  cases s.params.lsIncrementI with
  | unchanged => rfl
  | xPlus1 =>
    change (s.idx + BitVec.ofNat 16 (x.val + 1)).toNat = (s.idx.toNat + x.val + 1) % 65536
    rw [BitVec.toNat_add, BitVec.toNat_ofNat]
    omega

/-! ## Blocks in memory -/

/-- A block stored at EA(0) that fits reads back at EA(k) (20 R55, R56). -/
theorem read_storedBlock {s : State} {bs : List Byte} {k : Nat} (hwf : s.mem.wf = true)
    (hfits : s.idx.toNat % 4096 + bs.length ≤ 4096) (hk : k < bs.length) :
    (s.mem.writeBytes (s.ea 0) bs).read (s.ea k) = bs[k] := by
  have hbound : s.ea 0 + bs.length ≤ Config.memSize := by rwa [ea_eq]
  rw [← ea_add]
  exact read_writeBytes_inside hwf hbound hk

/-- After Fx55 the byte at EA(k) is V[k]. -/
theorem read_storedRegister {x k : Reg} {s : State} (hwf : s.mem.wf = true)
    (hfits : s.idx.toNat % 4096 + (x.val + 1) ≤ 4096) (hk : k ≤ x) :
    (s.mem.writeBytes (s.ea 0) (registerBlock x s)).read (s.ea k.val) = s.getV k := by
  rw [← registerBlock_length x s] at hfits
  have hlt : k.val < (registerBlock x s).length := by
    rw [registerBlock_length]
    exact Nat.lt_succ_of_le hk
  rw [read_storedBlock hwf hfits hlt, registerBlock_getElem]

/-- The hundreds, tens and ones of a byte as numbers (42 R143). -/
theorem decimalDigits_toNat (b : Byte) :
    (decimalDigits b).map BitVec.toNat = [b.toNat / 100, b.toNat / 10 % 10, b.toNat % 10] := by
  have hb := b.isLt
  simp only [decimalDigits, List.map_cons, List.map_nil, BitVec.toNat_ofNat, List.cons.injEq, and_true]
  omega

/-- After Fx33 the byte at EA(k) is the k-th decimal digit. -/
theorem read_storedDigit {s : State} {k : Nat} (hwf : s.mem.wf = true) (hfits : s.idx.toNat % 4096 + 3 ≤ 4096)
    (b : Byte) (hk : k < 3) :
    ((s.mem.writeBytes (s.ea 0) (decimalDigits b)).read (s.ea k)).toNat =
      [b.toNat / 100, b.toNat / 10 % 10, b.toNat % 10][k] := by
  simp only [← decimalDigits_toNat, List.getElem_map]
  exact congrArg BitVec.toNat (read_storedBlock (bs := decimalDigits b) hwf hfits hk)

/-- Fx33 writes PC and the three bytes from EA(0) on (42 R143). -/
theorem written_ldB {x : Reg} {s : State} {p : Piece} (hp : Written (.ldB x) s p) :
    p ∈ [.pc, .mem (s.ea 0), .mem (s.ea 1), .mem (s.ea 2)] := by
  rcases hp with rfl | ⟨k, hk, rfl⟩
  · simp
  · obtain rfl | rfl | rfl : k = 0 ∨ k = 1 ∨ k = 2 := by omega
    all_goals simp

/-! ## The statements -/

/-- Settles O35: the three instructions are one write of I, each with its own word. -/
theorem indexInstructions : Obligations.IndexInstructions := by
  intro nnn x s
  have hsum : (s.idx + zextByte (s.getV x)).toNat = (s.idx.toNat + (s.getV x).toNat) % 65536 := by
    rw [BitVec.toNat_add, zextByte_toNat]
  exact ⟨decode_ldI nnn, decode_addI x, decode_ldF x, finishIndex_next (zextAddr_toNat nnn) s,
    finishIndex_next hsum s, finishIndex_next (glyphAddress_toNat (s.getV x)) s⟩

/-- Settles O36: the three digits are one block stored at EA(0), which fits or raises MEM_RANGE. -/
theorem decimalStore : Obligations.DecimalStore := by
  refine fun x s hwf => ⟨decode_ldB x, fun h => ?_, fun h => ?_⟩
  · have hfits : s.idx.toNat % 4096 + 3 ≤ 4096 := by omega
    have hexec := exec_ldB_ok x hfits
    have hdigit {k : Nat} (hk : k < 3) := read_storedDigit hwf hfits (s.getV x) hk
    exact ⟨_, hexec, hdigit (k := 0) (by decide), hdigit (k := 1) (by decide), hdigit (k := 2) (by decide), rfl, rfl,
      frame_of_exec_ok hexec rfl fun _ => written_ldB⟩
  · exact ⟨_, exec_ldB_range x (by omega), raisedFrom_raiseFatal ..⟩

/-- Settles O37: the registers are one block stored at EA(0), which fits or raises MEM_RANGE; the frame allows a write
of I under either `LS_INCREMENT_I`. -/
theorem registerStore : Obligations.RegisterStore := by
  refine fun x s hwf => ⟨decode_ldMemVx x, fun h => ?_, fun h => ?_⟩
  · have hfits : s.idx.toNat % 4096 + (x.val + 1) ≤ 4096 := by omega
    have hexec := exec_ldMemVx_ok x hfits
    exact ⟨_, hexec, fun _ => read_storedRegister hwf hfits, indexAfterBlock_toNat x s, rfl, rfl,
      frame_of_exec_ok hexec rfl fun _ => Or.imp_right (Or.imp_left And.right)⟩
  · exact ⟨_, exec_ldMemVx_range x (by omega), raisedFrom_raiseFatal ..⟩

/-- Settles O38: the loaded registers are read in the state before the step, and the block fits or raises MEM_RANGE; the
frame is as for O37. -/
theorem registerLoad : Obligations.RegisterLoad := by
  refine fun x s => ⟨decode_ldVxMem x, fun h => ?_, fun h => ?_⟩
  · have hexec := exec_ldVxMem_ok x (show s.idx.toNat % 4096 + (x.val + 1) ≤ 4096 by omega)
    have hloaded (k : Reg) (hk : k ≤ x) : (loadedRegisters x s)[k] = s.mem.read (s.ea k.val) := by
      rw [loadedRegisters_getElem, if_pos hk]
    exact ⟨_, hexec, hloaded, indexAfterBlock_toNat x s, rfl, rfl,
      frame_of_exec_ok hexec rfl fun _ => Or.imp_right (Or.imp_left And.right)⟩
  · exact ⟨_, exec_ldVxMem_range x (by omega), raisedFrom_raiseFatal ..⟩

end Sys2Proof.Machine
end

section
/-!
SUPPORT. The display: the word of 00E0 decodes to it, and the cleared framebuffer has every pixel off (spec 30 R74,
43 R161).
-/

namespace Sys2Proof.Machine

/-- `DECODE_STRICT` shows in the word of 00E0 only in its zero check (30 R74). -/
theorem decode_cls {strict : Bool} {x : Nibble} (h : strict = false ∨ x = 0) :
    decode strict (wordXkk 0x0 x 0xE0) = .cls x := by
  have hpass := strictCheck_passes h
  simp [decode, decodeFamily0, hpass]

/-- Settles O42: the step ends with the clear framebuffer, in which every pixel is off, and its rule writes no more
than PC and pixels. -/
theorem clearTurnsEveryPixelOff : Obligations.ClearTurnsEveryPixelOff := by
  intro x s
  have hexec : exec (.cls x) s = .next (complete s.pcNext { s with fb := Framebuffer.clear }) := rfl
  exact ⟨fun _ => decode_cls, _, hexec, pixel_clear, rfl, rfl, frame_of_exec_ok hexec rfl fun _ => id⟩

end Sys2Proof.Machine
end

section
/-!
SUPPORT. Keys: the words of Ex9E and ExA1 decode to them, the snapshot's answer to a key code under either
`KEY_RANGE_POLICY`, and PC after a skip on that answer (spec 30 R77, 44 R180-R182).
-/

namespace Sys2Proof.Machine

/-! ## The words of the key skips (30 R77) -/

theorem decode_familyE {w : Word} (h : familyOf w = 0xE) (strict : Bool) : decode strict w = decodeFamilyE w := by
  simp [decode, h]

/-- `DECODE_STRICT` does not show in family 0xE. -/
theorem decodes_of_decodeFamilyE {x : Nibble} {kk : Byte} {i : Instr} (h : decodeFamilyE (wordXkk 0xE x kk) = i) :
    Decodes (wordXkk 0xE x kk) i :=
  fun strict => (decode_familyE (familyOf_wordXkk 0xE x kk) strict).trans h

theorem decode_skp (x : Reg) : Decodes (wordXkk 0xE (regNibble x) 0x9E) (.skp x) :=
  decodes_of_decodeFamilyE (by simp [decodeFamilyE])

theorem decode_sknp (x : Reg) : Decodes (wordXkk 0xE (regNibble x) 0xA1) (.sknp x) :=
  decodes_of_decodeFamilyE (by simp [decodeFamilyE])

/-! ## Pressed keys (44 R180) -/

/-- A code of at most 0xF is its own low nibble, so the codes that name a key all name the one of their low nibble. -/
theorem pressed_eq (s : State) (code : Byte) :
    s.pressed code =
      if code.toNat ≤ 0xF ∨ s.params.keyRangePolicy = .lowNibble then s.keys.getLsbD (code.toNat % 16) else false := by
  unfold State.pressed
  by_cases hcode : code.toNat ≤ 0xF
  · rw [if_pos hcode, if_pos (.inl hcode), Nat.mod_eq_of_lt (by omega)]
  · rw [if_neg hcode]
    cases hpolicy : s.params.keyRangePolicy with
    | notPressed => simp [hcode]
    | lowNibble => simp

/-! ## The skip -/

/-- PC after a skip taken when the test fails (44 R182). -/
theorem pcSkip_not (taken : Bool) (s : State) : s.pcSkip (!taken) = if taken = true then s.pc + 2 else s.pc + 4 := by
  cases taken <;> rfl

/-- Settles O46: the two instructions skip on the two outcomes of one test of the snapshot. -/
theorem skipsOnKey : Obligations.SkipsOnKey := by
  intro x s code pressed
  have hpressed : s.pressed (s.getV x) = pressed := pressed_eq s (s.getV x)
  rw [← hpressed]
  exact ⟨decode_skp x, decode_sknp x, ⟨_, rfl, rfl, rfl, frame_complete _ s⟩,
    ⟨_, rfl, pcSkip_not (s.pressed (s.getV x)) s, rfl, frame_complete _ s⟩⟩

end Sys2Proof.Machine
end

section
/-!
SUPPORT. Unrecognized words: what the decoder answers encodes back to its word, and the word of a well-formed
instruction is selected by a row, so a word no row selects is answered as UNRECOGNIZED (spec 30 R79, R80, 45 R200).
-/

namespace Sys2Proof.Laws.RowMatch

/-- Every well-formed instruction's word is selected by the row of its mnemonic. -/
theorem statement : ∀ i : Instr, Statement i
  | .cls a => cls a
  | .ret a => ret a
  | .jp a => jp a
  | .call a => call a
  | .seImm a b => seImm a b
  | .sneImm a b => sneImm a b
  | .seReg a b c => seReg a b c
  | .sneReg a b c => sneReg a b c
  | .ldImm a b => ldImm a b
  | .addImm a b => addImm a b
  | .ldReg a b => ldReg a b
  | .or a b => or a b
  | .and a b => and a b
  | .xor a b => xor a b
  | .addReg a b => addReg a b
  | .sub a b => sub a b
  | .shr a b => shr a b
  | .subn a b => subn a b
  | .shl a b => shl a b
  | .ldI a => ldI a
  | .jpV0 a => jpV0 a
  | .rnd a b => rnd a b
  | .drw a b c => drw a b c
  | .skp a => skp a
  | .sknp a => sknp a
  | .ldVxDt a => ldVxDt a
  | .ldVxK a => ldVxK a
  | .ldDtVx a => ldDtVx a
  | .ldStVx a => ldStVx a
  | .addI a => addI a
  | .ldF a => ldF a
  | .ldB a => ldB a
  | .ldMemVx a => ldMemVx a
  | .ldVxMem a => ldVxMem a
  | .unrecognized a => unrecognized a

end Sys2Proof.Laws.RowMatch

namespace Sys2Proof

/-! ## A word from its fields (30 R72) -/

section
variable {w : Word} {f n : Nibble} {kk : Byte}

theorem wordNnn_of_fields (hf : familyOf w = f) : wordNnn f (nnnOf w) = w := by
  rw [← hf, wordNnn_fields]

theorem wordXkk_of_fields (hf : familyOf w = f) (hkk : kkOf w = kk) : wordXkk f (xNibble w) kk = w := by
  rw [← hf, ← hkk, wordXkk_fields]

theorem wordXyn_of_fields (hf : familyOf w = f) (hn : nOf w = n) :
    wordXyn f (xNibble w) (yNibble w) n = w := by
  rw [← hf, ← hn, wordXyn_fields]

end

/-! ## What the decoder answers -/

/-- An instruction that stands for a word: it encodes to the word, and it is well-formed or UNRECOGNIZED. -/
def StandsFor (strict : Bool) (w : Word) (i : Instr) : Prop :=
  encode i = w ∧ (i = .unrecognized w ∨ wellFormed strict i = true)

section
variable {strict : Bool} {w : Word}

theorem standsFor_unrecognized : StandsFor strict w (.unrecognized w) := ⟨rfl, .inl rfl⟩

/-- A zero check that passes is the condition of `wellFormed` on the nibble it reads. -/
theorem standsFor_zeroChecked {i : Instr} {n : Nibble} (hcheck : ¬ (strict && n != 0#4) = true) (hencode : encode i = w)
    (hwf : wellFormed strict i = (!strict || n == 0#4)) : StandsFor strict w i :=
  ⟨hencode, .inr (by rw [hwf]; simpa [imp_iff_not_or] using hcheck)⟩

theorem decodeFamily0_standsFor (hf : familyOf w = 0x0) : StandsFor strict w (decodeFamily0 strict w) := by
  unfold decodeFamily0
  split
  · exact standsFor_unrecognized
  · next hcheck =>
    split
    · next hkk => exact standsFor_zeroChecked hcheck (wordXkk_of_fields hf hkk) rfl
    · next hkk => exact standsFor_zeroChecked hcheck (wordXkk_of_fields hf hkk) rfl
    · exact standsFor_unrecognized

theorem decodeRegSkip_standsFor {make : Reg → Reg → Nibble → Instr}
    (hencode : encode (make (xOf w) (yOf w) (nOf w)) = w)
    (hwf : wellFormed strict (make (xOf w) (yOf w) (nOf w)) = (!strict || nOf w == 0#4)) :
    StandsFor strict w (decodeRegSkip strict make w) := by
  unfold decodeRegSkip
  split
  · exact standsFor_unrecognized
  · next hcheck => exact standsFor_zeroChecked hcheck hencode hwf

theorem decodeFamily8_standsFor (hf : familyOf w = 0x8) : StandsFor strict w (decodeFamily8 w) := by
  unfold decodeFamily8
  split
  case h_10 => exact standsFor_unrecognized
  all_goals exact ⟨wordXyn_of_fields hf ‹_›, .inr rfl⟩

theorem decodeFamilyE_standsFor (hf : familyOf w = 0xE) : StandsFor strict w (decodeFamilyE w) := by
  unfold decodeFamilyE
  split
  case h_3 => exact standsFor_unrecognized
  all_goals exact ⟨wordXkk_of_fields hf ‹_›, .inr rfl⟩

theorem decodeFamilyF_standsFor (hf : familyOf w = 0xF) : StandsFor strict w (decodeFamilyF w) := by
  unfold decodeFamilyF
  split
  case h_10 => exact standsFor_unrecognized
  all_goals exact ⟨wordXkk_of_fields hf ‹_›, .inr rfl⟩

end

/-- The decoder keeps every bit of the word, and answers a form `wellFormed` excludes only as UNRECOGNIZED (30 R74,
R75, R80). -/
theorem decode_standsFor (strict : Bool) (w : Word) : StandsFor strict w (decode strict w) := by
  unfold decode
  split
  case h_1 hf => exact decodeFamily0_standsFor hf
  case h_2 hf => exact ⟨wordNnn_of_fields hf, .inr rfl⟩
  case h_3 hf => exact ⟨wordNnn_of_fields hf, .inr rfl⟩
  case h_6 hf => exact decodeRegSkip_standsFor (wordXyn_of_fields hf rfl) rfl
  case h_9 hf => exact decodeFamily8_standsFor hf
  case h_10 hf => exact decodeRegSkip_standsFor (wordXyn_of_fields hf rfl) rfl
  case h_11 hf => exact ⟨wordNnn_of_fields hf, .inr rfl⟩
  case h_12 hf => exact ⟨wordNnn_of_fields hf, .inr rfl⟩
  case h_14 hf => exact ⟨wordXyn_of_fields hf rfl, .inr rfl⟩
  case h_15 hf => exact decodeFamilyE_standsFor hf
  case h_16 =>
    have hf : familyOf w = 0xF := by
      simp only [imp_false] at *
      bv_omega
    exact decodeFamilyF_standsFor hf
  -- The arms left are those of the format Xkk with any `kk`.
  all_goals exact ⟨wordXkk_of_fields ‹_› rfl, .inr rfl⟩

/-! ## The rows of the opcode table (30 R80) -/

/-- Every instruction but UNRECOGNIZED has a row. -/
theorem exists_row (i : Instr) :
    (∃ u, i = .unrecognized u) ∨ ∃ row ∈ opcodeRows, row.mnemonic = mnemonic i := by
  cases i with
  | unrecognized u => exact .inl ⟨u, rfl⟩
  | _ =>
    refine .inr ?_
    simp only [mnemonic]
    decide

/-- A well-formed instruction is UNRECOGNIZED, or some row selects its word. -/
theorem recognized_encode {strict : Bool} {i : Instr} (hwf : wellFormed strict i = true) :
    (∃ u, i = .unrecognized u) ∨ recognized strict (encode i) = true := by
  refine (exists_row i).imp_right ?_
  rintro ⟨row, hrow, hname⟩
  exact List.any_eq_true.mpr ⟨row, hrow, Laws.RowMatch.statement i strict hwf row hrow hname⟩

/-- A word no row selects is UNRECOGNIZED (30 R79, R80). -/
theorem decode_of_not_recognized {strict : Bool} {w : Word} (h : recognized strict w = false) :
    decode strict w = .unrecognized w := by
  obtain ⟨hencode, hdecode | hwf⟩ := decode_standsFor strict w
  · exact hdecode
  · obtain ⟨u, hu⟩ | hrec := recognized_encode hwf
    · have huw : u = w := by simpa [hu, encode] using hencode
      rw [hu, huw]
    · rw [hencode, h] at hrec
      cases hrec

end Sys2Proof

namespace Sys2Proof.Machine

/-- Settles O19: the decoder's answer by the rows of the table, and the step that only completes at the next word. -/
theorem unrecognizedOnlyAdvancesPc : Obligations.UnrecognizedOnlyAdvancesPc :=
  fun _ s => ⟨fun _ => decode_of_not_recognized, _, rfl, rfl, rfl, frame_complete _ s⟩

end Sys2Proof.Machine
end

section
/-!
SUPPORT. The timers: a TICK is accepted in every phase but HALTED, its decrement is subtraction truncated at 0, and it
writes only the two timers (spec 60 R231, R232).
-/

namespace Sys2Proof.Machine

/-- The converse of `accepts_tick`. -/
theorem accepts_tick_of_ne_halted {p : Phase} (h : p ≠ .halted) : accepts p .tick = true := by
  cases p with
  | halted => exact absurd rfl h
  | empty => rfl
  | running => rfl

/-- A timer at 0 stays there, and any other loses 1 without a wrap. -/
theorem timerDecrement_toNat (b : Byte) : (if b = 0#8 then b else b - 1#8).toNat = b.toNat - 1 := by
  split
  · next hzero => rw [hzero]; rfl
  · next hpos => bv_omega

theorem frame_doTick (s : State) : FrameExcept (· ∈ [.dt, .st]) s (doTick s) := by
  have timers := (frame_dt (doTick s).dt s).andThen (frame_st (doTick s).st _)
  have ticked := timers.trans (frame_result_draws _ .ok s.draws _)
  exact ticked.mono fun p hp => by simpa using hp.symm

/-- Settles O49: the accepted TICK runs `doTick`, which decrements each timer and keeps the rest. -/
theorem tickDecrementsTimers : Obligations.TickDecrementsTimers := by
  intro s rest hinbox hphase
  exact ⟨_, step_accepted hinbox (accepts_tick_of_ne_halted hphase), timerDecrement_toNat s.dt,
    timerDecrement_toNat s.st, rfl, frame_doTick _⟩

end Sys2Proof.Machine
end

section
/-!
SUPPORT. Reset, load and boot: RESET is accepted in every phase and leaves the same state but for V, I, DT and ST, an
accepted LOAD stores the font and the program in two blocks, and after both the first fetch reads the program's first
word (spec 10 R39, 70 R250-R255).
-/

namespace Sys2Proof.Machine

/-! ## RESET (10 R39, 70 R250) -/

/-- RESET is accepted in every phase. -/
theorem step_reset {s : State} {rest : List Command} (hinbox : s.inbox = .reset :: rest) :
    step s = .next (doReset { s with inbox := rest }) :=
  step_accepted hinbox rfl

/-- `RESET_REGS` shows only in V, I, DT, ST and the count of draws. -/
theorem doReset_eq (s : State) :
    doReset s =
      { State.reset with
        v := (doReset s).v, idx := (doReset s).idx, dt := (doReset s).dt, st := (doReset s).st,
        params := s.params, keys := s.keys, rnd := s.rnd, inbox := s.inbox, draws := (doReset s).draws } := by
  unfold doReset
  split <;> rfl

@[simp] theorem doReset_mem (s : State) : (doReset s).mem = [] := congrArg State.mem (doReset_eq s)
@[simp] theorem doReset_pc (s : State) : (doReset s).pc = 0x200 := congrArg State.pc (doReset_eq s)
@[simp] theorem doReset_sp (s : State) : (doReset s).sp = 0 := congrArg State.sp (doReset_eq s)
@[simp] theorem doReset_fb (s : State) : (doReset s).fb = Framebuffer.clear := congrArg State.fb (doReset_eq s)
@[simp] theorem doReset_phase (s : State) : (doReset s).phase = .empty := congrArg State.phase (doReset_eq s)
@[simp] theorem doReset_faultCode (s : State) : (doReset s).faultCode = .none := congrArg State.faultCode (doReset_eq s)
@[simp] theorem doReset_faultPc (s : State) : (doReset s).faultPc = 0 := congrArg State.faultPc (doReset_eq s)
@[simp] theorem doReset_faultInsn (s : State) : (doReset s).faultInsn = 0 := congrArg State.faultInsn (doReset_eq s)
@[simp] theorem doReset_faultInfo (s : State) : (doReset s).faultInfo = 0 := congrArg State.faultInfo (doReset_eq s)
@[simp] theorem doReset_params (s : State) : (doReset s).params = s.params := by rw [doReset_eq]
@[simp] theorem doReset_result (s : State) : (doReset s).result = .ok := congrArg State.result (doReset_eq s)
@[simp] theorem doReset_inbox (s : State) : (doReset s).inbox = s.inbox := by rw [doReset_eq]

@[simp] theorem doReset_stack (s : State) : (doReset s).stack = Vector.replicate 16 0 :=
  congrArg State.stack (doReset_eq s)

/-- Under `RESET_REGS = ZERO` the registers and timers are 0 too. -/
theorem doReset_zero {s : State} (hzero : s.params.resetRegs = .zero) :
    (∀ x, (doReset s).getV x = 0) ∧ (doReset s).idx = 0 ∧ (doReset s).dt = 0 ∧ (doReset s).st = 0 := by
  rw [doReset, hzero]
  exact ⟨fun x => Vector.getElem_replicate x.isLt, rfl, rfl, rfl⟩

/-! ## Blocks in memory -/

/-- A block read at an offset from its first address: the block's byte, and past its end the byte that was there. -/
theorem read_writeBytes_getD {a : Nat} {bs : List Byte} {m : Memory} (hwf : m.wf = true)
    (hfits : a + bs.length ≤ Config.memSize) (k : Nat) :
    (m.writeBytes a bs).read (a + k) = bs.getD k (m.read (a + k)) := by
  by_cases hk : k < bs.length
  · rw [read_writeBytes_inside hwf hfits hk, List.getD_eq_getElem bs _ hk]
  · rw [read_writeBytes_outside (by omega), List.getD_eq_default bs _ (by omega)]

/-- A block store writes the bytes from its first address on and no other. -/
theorem frame_writeBytes (a : Nat) (bs : List Byte) (s : State) :
    FrameExcept (fun p => ∃ k, k < bs.length ∧ p = .mem (a + k)) s { s with mem := s.mem.writeBytes a bs } := by
  refine ⟨fun p hp => ?_, rfl, rfl, rfl, rfl⟩
  cases p with
  | mem k =>
    have houtside : k < a ∨ a + bs.length ≤ k := by
      by_contra hinside
      exact hp ⟨k - a, by omega, congrArg Piece.mem (by omega)⟩
    exact congrArg BitVec.toNat (read_writeBytes_outside houtside s.mem)
  | _ => rfl

theorem frame_phase (ph : Phase) (s : State) : FrameExcept (· = .phase) s { s with phase := ph } := by
  refine ⟨fun p hp => ?_, rfl, rfl, rfl, rfl⟩
  cases p with
  | phase => exact absurd rfl hp
  | _ => rfl

/-! ## LOAD (70 R253, R254) -/

/-- Memory after the font is stored at 0x000. -/
def withFont (s : State) : Memory := s.mem.writeBytes 0 s.params.font.toList

/-- The font ends below the entry point. -/
theorem font_length_le_entry (s : State) : 0 + s.params.font.toList.length ≤ Config.entry := by
  rw [Vector.length_toList]
  decide

theorem font_length_le_memSize (s : State) : 0 + s.params.font.toList.length ≤ Config.memSize :=
  (font_length_le_entry s).trans (by decide)

/-- A program of at most 3584 bytes fits from the entry point on. -/
theorem program_length_le_memSize {bytes : List Byte} (hfits : bytes.length ≤ 3584) :
    Config.entry + bytes.length ≤ Config.memSize := Nat.add_le_add_left hfits Config.entry

theorem withFont_wf {s : State} (hwf : s.mem.wf = true) : (withFont s).wf = true :=
  wf_writeBytes hwf (font_length_le_memSize s)

theorem withFont_read_font {s : State} (hwf : s.mem.wf = true) (k : Fin 80) :
    (withFont s).read k.val = s.params.font[k] := by
  have hk : k.val < s.params.font.toList.length := by simp
  have hread := read_writeBytes_inside hwf (font_length_le_memSize s) hk
  rwa [Nat.zero_add, Vector.getElem_toList] at hread

theorem withFont_read_program (s : State) (k : Nat) :
    (withFont s).read (Config.entry + k) = s.mem.read (Config.entry + k) :=
  read_writeBytes_outside (.inr (Nat.le_add_right_of_le (font_length_le_entry s))) s.mem

section
variable {s : State} {bytes : List Byte} {rest : List Command}

theorem doLoad_tooLong (hlong : bytes.length > 3584) : doLoad bytes s = raiseFatal ⟨.loadSize, 0⟩ 0 s :=
  if_pos hlong

theorem doLoad_fits (hfits : bytes.length ≤ 3584) :
    doLoad bytes s =
      { s with mem := (withFont s).writeBytes Config.entry bytes, phase := .running, result := .ok } :=
  if_neg (Nat.not_lt.mpr hfits)

/-- In EMPTY a LOAD is accepted. -/
theorem step_load (hphase : s.phase = .empty) (hinbox : s.inbox = .load bytes :: rest) :
    step s = .next (doLoad bytes { s with inbox := rest }) :=
  step_accepted hinbox (by rw [hphase]; rfl)

/-- An accepted LOAD writes PHASE, the 80 bytes of the font and the bytes of the program. -/
theorem frame_doLoad (hfits : bytes.length ≤ 3584) :
    FrameExcept (fun p => p = .phase ∨ (∃ a, a < 80 ∧ p = .mem a) ∨
      ∃ k, k < bytes.length ∧ p = .mem (0x200 + k)) s (doLoad bytes s) := by
  have font := frame_writeBytes 0 s.params.font.toList s
  simp only [Vector.length_toList, Nat.zero_add] at font
  have loaded := (font.andThen (frame_writeBytes Config.entry bytes _)).andThen (frame_phase .running _)
  rw [doLoad_fits hfits]
  exact (loaded.trans (frame_result_draws _ .ok s.draws _)).mono fun _ => Or.imp_right Or.symm

end

/-! ## The first fetch (70 R251) -/

/-- A fetch at the entry point passes its checks under every policy. -/
theorem fetchCheck_entry {s : State} (hpc : s.pc = 0x200) : fetchCheck s = none :=
  fetchCheck_pass (by simp [hpc]) (by simp [hpc]) (by simp [hpc])

/-- After a LOAD over zero-filled memory the bytes from the entry point on are the program's, and 0 past its end. -/
theorem read_program_of_blank {s : State} {bytes : List Byte} (hblank : s.mem = []) (hfits : bytes.length ≤ 3584)
    (k : Nat) : ((withFont s).writeBytes Config.entry bytes).read (Config.entry + k) = bytes.getD k 0 := by
  have hwf : s.mem.wf = true := by rw [hblank]; rfl
  rw [read_writeBytes_getD (withFont_wf hwf) (program_length_le_memSize hfits), withFont_read_program, hblank]
  rfl

/-- The fetch at the entry point reads the first two bytes of the program. -/
theorem fetchInstr_entry {s : State} {bytes : List Byte} (hpc : s.pc = 0x200)
    (hread : ∀ k, s.mem.read (Config.entry + k) = bytes.getD k 0) :
    fetchInstr s = decode s.params.decodeStrict (bigEndian (bytes.getD 0 0) (bytes.getD 1 0)) := by
  rw [fetchInstr, hpc, ← hread 0, ← hread 1]
  rfl

/-- In RUNNING with PC at the entry point, a STEP runs the program's first word. -/
theorem step_entry {s : State} {bytes : List Byte} {keys : Word} {rnd : Byte} {rest : List Command}
    (hphase : s.phase = .running) (hinbox : s.inbox = .step keys rnd :: rest) (hpc : s.pc = 0x200)
    (hread : ∀ k, s.mem.read (Config.entry + k) = bytes.getD k 0) :
    step s = exec (decode s.params.decodeStrict (bigEndian (bytes.getD 0 0) (bytes.getD 1 0)))
      { s with inbox := rest, keys := keys, rnd := rnd } := by
  rw [step_exec_of_fetchCheck hphase hinbox (fetchCheck_entry hpc), fetchInstr_entry hpc hread]

/-- From EMPTY with zero-filled memory and PC at the entry point, a LOAD that fits and a STEP run the program's first
word. -/
theorem load_then_step_runs_entry {s : State} {bytes : List Byte} {keys : Word} {rnd : Byte} {rest : List Command}
    (hphase : s.phase = .empty) (hblank : s.mem = []) (hpc : s.pc = 0x200) (hfits : bytes.length ≤ 3584)
    (hinbox : s.inbox = .load bytes :: .step keys rnd :: rest) :
    ∃ u, step s = .next u ∧ u.phase = .running ∧ u.pc = 0x200 ∧ u.sp = s.sp ∧
      step u = exec (decode s.params.decodeStrict (bigEndian (bytes.getD 0 0) (bytes.getD 1 0)))
        { u with inbox := rest, keys := keys, rnd := rnd } := by
  have hload := step_load hphase hinbox
  rw [doLoad_fits hfits] at hload
  exact ⟨_, hload, rfl, hpc, rfl, step_entry rfl rfl hpc (read_program_of_blank hblank hfits)⟩

/-! ## The statements -/

/-- Settles O50: the step runs `doReset`, whose fields do not depend on the phase; under `ZERO` the registers do not
depend on the free values. -/
theorem resetSetsEveryPiece : Obligations.ResetSetsEveryPiece := by
  intro s rest hinbox
  refine ⟨_, step_reset hinbox, fun a => ?_, doReset_pc _, doReset_sp _, fun j => ?_, fun r c => ?_, doReset_phase _,
    doReset_faultCode _, doReset_faultPc _, doReset_faultInsn _, doReset_faultInfo _, doReset_result _,
    fun hzero => doReset_zero hzero⟩
  · rw [doReset_mem]
    rfl
  · simp
  · rw [doReset_fb, pixel_clear]

/-- Settles O51: the two blocks are apart, so the font is seen below the program and each reads back; a LOAD that is too
long ends in the fatal state. -/
theorem loadWritesFontAndProgram : Obligations.LoadWritesFontAndProgram := by
  intro s bytes rest hwf hphase hinbox u
  have hstep : step s = .next (doLoad bytes u) := step_load hphase hinbox
  refine ⟨fun hfits => ?_, fun hlong => ?_⟩
  · have hframe := frame_doLoad (s := u) hfits
    rw [doLoad_fits hfits] at hstep hframe
    refine ⟨_, hstep, fun k => ?_, fun k hk => ?_, rfl, rfl, hframe⟩
    · have hbelow : k.val < Config.entry := k.isLt.trans (by decide)
      exact (read_writeBytes_outside (.inl hbelow) (withFont u)).trans (withFont_read_font hwf k)
    · exact read_writeBytes_inside (withFont_wf hwf) (program_length_le_memSize hfits) hk
  · rw [doLoad_tooLong hlong] at hstep
    exact ⟨_, hstep, raisedFrom_raiseFatal ..⟩

/-- Settles O52: RESET leaves the blank EMPTY state from which LOAD and STEP run the program's first word. -/
theorem firstStepRunsProgramEntry : Obligations.FirstStepRunsProgramEntry := by
  intro s bytes keys rnd rest hfits hinbox
  have hqueue := doReset_inbox { s with inbox := .load bytes :: .step keys rnd :: rest }
  obtain ⟨u, hload, hphase, hpc, hsp, hexec⟩ :=
    load_then_step_runs_entry (doReset_phase _) (doReset_mem _) (doReset_pc _) hfits hqueue
  rw [doReset_sp] at hsp
  rw [doReset_params] at hexec
  exact ⟨_, u, step_reset hinbox, hload, hphase, hpc, hsp, hexec⟩

end Sys2Proof.Machine
end

section
/-!
SUPPORT. The decoder and the encoder are inverse to each other: the words of the instructions no earlier part needed,
the rows of the opcode table field by field, and the words that are UNRECOGNIZED (spec 30 R72-R80).
-/

namespace Sys2Proof.Machine

/-! ## The remaining words (30 R74-R78) -/

theorem decode_shr (x y : Reg) : Decodes (wordXyn 0x8 (regNibble x) (regNibble y) 0x6) (.shr x y) :=
  decodes_of_decodeFamily8 (by simp [decodeFamily8])

theorem decode_shl (x y : Reg) : Decodes (wordXyn 0x8 (regNibble x) (regNibble y) 0xE) (.shl x y) :=
  decodes_of_decodeFamily8 (by simp [decodeFamily8])

theorem decode_drw (x y : Reg) (n : Nibble) : Decodes (wordXyn 0xD (regNibble x) (regNibble y) n) (.drw x y n) :=
  fun _ => by simp [decode]

theorem decode_ldVxDt (x : Reg) : Decodes (wordXkk 0xF (regNibble x) 0x07) (.ldVxDt x) :=
  decodes_of_decodeFamilyF (by simp [decodeFamilyF])

theorem decode_ldVxK (x : Reg) : Decodes (wordXkk 0xF (regNibble x) 0x0A) (.ldVxK x) :=
  decodes_of_decodeFamilyF (by simp [decodeFamilyF])

theorem decode_ldDtVx (x : Reg) : Decodes (wordXkk 0xF (regNibble x) 0x15) (.ldDtVx x) :=
  decodes_of_decodeFamilyF (by simp [decodeFamilyF])

theorem decode_ldStVx (x : Reg) : Decodes (wordXkk 0xF (regNibble x) 0x18) (.ldStVx x) :=
  decodes_of_decodeFamilyF (by simp [decodeFamilyF])

/-! ## Decoding an encoding -/

/-- The zero check in `wellFormed` is the one the decoder makes. -/
theorem zeroChecked {strict : Bool} {n : Nibble} (h : (!strict || n == 0#4) = true) : strict = false ∨ n = 0 := by
  simpa using h

/-- Settles O1: each constructor's word decodes to it; where the decoder makes a zero check, well-formedness passes it,
and an UNRECOGNIZED word is well-formed only where no row selects it. -/
theorem decodeOfEncodeIsIdentity : Obligations.DecodeOfEncodeIsIdentity := by
  intro strict i hwf
  cases i with
  | cls x => exact decode_cls (zeroChecked hwf)
  | ret x => exact decode_ret (zeroChecked hwf)
  | seReg x y n =>
    exact (decode_family5 (familyOf_wordXyn ..) strict).trans (decodeRegSkip_passes (zeroChecked hwf) ..)
  | sneReg x y n =>
    exact (decode_family9 (familyOf_wordXyn ..) strict).trans (decodeRegSkip_passes (zeroChecked hwf) ..)
  | unrecognized w => exact decode_of_not_recognized (w := w) (by simpa [wellFormed] using hwf)
  | jp nnn => exact decode_jp nnn strict
  | call nnn => exact decode_call nnn strict
  | seImm x kk => exact decode_seImm x kk strict
  | sneImm x kk => exact decode_sneImm x kk strict
  | ldImm x kk => exact decode_ldImm x kk strict
  | addImm x kk => exact decode_addImm x kk strict
  | ldReg x y => exact decode_ldReg x y strict
  | or x y => exact decode_or x y strict
  | and x y => exact decode_and x y strict
  | xor x y => exact decode_xor x y strict
  | addReg x y => exact decode_addReg x y strict
  | sub x y => exact decode_sub x y strict
  | shr x y => exact decode_shr x y strict
  | subn x y => exact decode_subn x y strict
  | shl x y => exact decode_shl x y strict
  | ldI nnn => exact decode_ldI nnn strict
  | jpV0 nnn => exact decode_jpV0 nnn strict
  | rnd x kk => exact decode_rnd x kk strict
  | drw x y n => exact decode_drw x y n strict
  | skp x => exact decode_skp x strict
  | sknp x => exact decode_sknp x strict
  | ldVxDt x => exact decode_ldVxDt x strict
  | ldVxK x => exact decode_ldVxK x strict
  | ldDtVx x => exact decode_ldDtVx x strict
  | ldStVx x => exact decode_ldStVx x strict
  | addI x => exact decode_addI x strict
  | ldF x => exact decode_ldF x strict
  | ldB x => exact decode_ldB x strict
  | ldMemVx x => exact decode_ldMemVx x strict
  | ldVxMem x => exact decode_ldVxMem x strict

end Sys2Proof.Machine

namespace Sys2Proof

/-! ## Rows of the opcode table (30 R80) -/

/-- The mask of a row under a value of `DECODE_STRICT`. -/
def OpcodeRow.maskFor (row : OpcodeRow) (strict : Bool) : Word := if strict then row.strictMask else row.mask

/-- The bits of a row under a value of `DECODE_STRICT`. -/
def OpcodeRow.bitsFor (row : OpcodeRow) (strict : Bool) : Word := if strict then row.strictBits else row.bits

theorem rowMatches_iff {strict : Bool} {w : Word} {row : OpcodeRow} :
    rowMatches strict w row = true ↔ w &&& row.maskFor strict = row.bitsFor strict := by
  cases strict <;> simp [rowMatches, OpcodeRow.maskFor, OpcodeRow.bitsFor]

/-- Two rows that select one word agree where both masks look. -/
theorem masked_agree {w m m' b b' : Word} (h : w &&& m = b) (h' : w &&& m' = b') : b &&& m' = b' &&& m := by
  rw [← h, ← h', BitVec.and_assoc, BitVec.and_assoc, BitVec.and_comm m]

/-- Rows that agree where both masks look are one row. -/
theorem rows_apart : ∀ strict : Bool, ∀ row ∈ opcodeRows, ∀ row' ∈ opcodeRows,
    row.bitsFor strict &&& row'.maskFor strict = row'.bitsFor strict &&& row.maskFor strict → row = row' := by
  decide

/-! ## The unlisted words (30 R74-R79) -/

/-- The values of `kk` the table lists in a family keyed on `kk`: 0x0, 0xE or 0xF. -/
def listedKk (family : Nibble) : List Byte :=
  if family = 0x0#4 then [0xE0#8, 0xEE#8]
  else if family = 0xE#4 then [0x9E#8, 0xA1#8]
  else [0x07#8, 0x0A#8, 0x15#8, 0x18#8, 0x1E#8, 0x29#8, 0x33#8, 0x55#8, 0x65#8]

/-- The values of `n` the table lists in family 0x8. -/
def listedN : List Nibble :=
  [0x0#4, 0x1#4, 0x2#4, 0x3#4, 0x4#4, 0x5#4, 0x6#4, 0x7#4, 0xE#4]

/-- The words the decode map sends to UNRECOGNIZED: a key the table does not list, or a zero check that fails. -/
def Unlisted (strict : Bool) (w : Word) : Prop :=
  (familyOf w ∈ [0x0#4, 0xE#4, 0xF#4] ∧ kkOf w ∉ listedKk (familyOf w)) ∨
  (familyOf w = 0x8#4 ∧ nOf w ∉ listedN) ∨
  (familyOf w = 0x0#4 ∧ strict = true ∧ xNibble w ≠ 0#4) ∨
  (familyOf w ∈ [0x5#4, 0x9#4] ∧ strict = true ∧ nOf w ≠ 0#4)

/-- Each row tests the whole family, the whole key where its family has one, and 0 where `DECODE_STRICT` asks for 0. -/
theorem row_tests : ∀ strict : Bool, ∀ row ∈ opcodeRows,
    let m := row.maskFor strict
    let b := row.bitsFor strict
    familyOf m = 0xF#4 ∧
    (familyOf b ∈ [0x0#4, 0xE#4, 0xF#4] → kkOf m = 0xFF#8 ∧ kkOf b ∈ listedKk (familyOf b)) ∧
    (familyOf b = 0x8#4 → nOf m = 0xF#4 ∧ nOf b ∈ listedN) ∧
    (familyOf b = 0x0#4 → strict = true → xNibble m = 0xF#4 ∧ xNibble b = 0#4) ∧
    (familyOf b ∈ [0x5#4, 0x9#4] → strict = true → nOf m = 0xF#4 ∧ nOf b = 0#4) := by
  decide

/-- A mask acts on each field of the word. -/
theorem fields_and (w m : Word) :
    familyOf (w &&& m) = familyOf w &&& familyOf m ∧ xNibble (w &&& m) = xNibble w &&& xNibble m ∧
      nOf (w &&& m) = nOf w &&& nOf m ∧ kkOf (w &&& m) = kkOf w &&& kkOf m :=
  ⟨BitVec.extractLsb'_and, BitVec.extractLsb'_and, BitVec.extractLsb'_and, BitVec.extractLsb'_and⟩

/-- No row selects an unlisted word: the row of its family would ask for another key, or for a 0. -/
theorem not_recognized_of_unlisted {strict : Bool} {w : Word} (h : Unlisted strict w) :
    recognized strict w = false := by
  by_contra hrec
  obtain ⟨row, hrow, hsel⟩ := List.any_eq_true.mp (Bool.not_eq_false _ ▸ hrec)
  obtain ⟨hf, hx, hn, hkk⟩ := fields_and w (row.maskFor strict)
  obtain ⟨mf, tkk, tn, tx0, tn0⟩ := row_tests strict row hrow
  rw [rowMatches_iff.mp hsel] at hf hx hn hkk
  rw [mf, nibble_and_ones] at hf
  rw [hf] at tkk tn tx0 tn0
  rcases h with ⟨hfam, hne⟩ | ⟨hfam, hne⟩ | ⟨hfam, hs, hne⟩ | ⟨hfam, hs, hne⟩
  · obtain ⟨mkk, bkk⟩ := tkk hfam
    rw [mkk, byte_and_ones] at hkk
    exact hne (hkk ▸ bkk)
  · obtain ⟨mn, bn⟩ := tn hfam
    rw [mn, nibble_and_ones] at hn
    exact hne (hn ▸ bn)
  · obtain ⟨mx, bx⟩ := tx0 hfam hs
    rw [mx, nibble_and_ones] at hx
    exact hne (hx ▸ bx)
  · obtain ⟨mn, bn⟩ := tn0 hfam hs
    rw [mn, nibble_and_ones] at hn
    exact hne (hn ▸ bn)

/-- Family 0xE answers UNRECOGNIZED only for a key that is in none of its arms. -/
theorem kk_unlisted_of_decodeFamilyE {w : Word} (h : decodeFamilyE w = .unrecognized w) : kkOf w ∉ listedKk 0xE#4 := by
  unfold decodeFamilyE at h
  split at h
  case h_3 =>
    simp only [imp_false] at *
    simp [listedKk, *]
  all_goals cases h

/-- The same of family 0xF. -/
theorem kk_unlisted_of_decodeFamilyF {w : Word} (h : decodeFamilyF w = .unrecognized w) : kkOf w ∉ listedKk 0xF#4 := by
  unfold decodeFamilyF at h
  split at h
  case h_10 =>
    simp only [imp_false] at *
    simp [listedKk, *]
  all_goals cases h

/-- The same of family 0x8, keyed on `n`. -/
theorem n_unlisted_of_decodeFamily8 {w : Word} (h : decodeFamily8 w = .unrecognized w) : nOf w ∉ listedN := by
  unfold decodeFamily8 at h
  split at h
  case h_10 =>
    simp only [imp_false] at *
    simp [listedN, *]
  all_goals cases h

/-- Family 0x0 answers UNRECOGNIZED for an unlisted key or by its zero check. -/
theorem unlisted_of_decodeFamily0 {strict : Bool} {w : Word} (h : decodeFamily0 strict w = .unrecognized w) :
    kkOf w ∉ listedKk 0x0#4 ∨ strict = true ∧ xNibble w ≠ 0#4 := by
  unfold decodeFamily0 at h
  split at h
  · next hcheck => exact .inr (by simpa using hcheck)
  · split at h
    case h_3 =>
      simp only [imp_false] at *
      simp [listedKk, *]
    all_goals cases h

/-- Families 0x5 and 0x9 answer UNRECOGNIZED only by their zero check. -/
theorem zeroCheck_of_decodeRegSkip {strict : Bool} {w : Word} {make : Reg → Reg → Nibble → Instr}
    (hmake : make (xOf w) (yOf w) (nOf w) ≠ .unrecognized w)
    (h : decodeRegSkip strict make w = .unrecognized w) : strict = true ∧ nOf w ≠ 0#4 := by
  unfold decodeRegSkip at h
  split at h
  · next hcheck => simpa using hcheck
  · exact absurd h hmake

/-- The decode map answers UNRECOGNIZED only for an unlisted word. -/
theorem unlisted_of_decode {strict : Bool} {w : Word} (h : decode strict w = .unrecognized w) : Unlisted strict w := by
  unfold decode at h
  split at h
  case h_1 hf =>
    rcases unlisted_of_decodeFamily0 h with hkk | hcheck
    · exact .inl (by simpa [hf] using hkk)
    · exact .inr (.inr (.inl ⟨hf, hcheck⟩))
  case h_6 hf => exact .inr (.inr (.inr ⟨by simp [hf], zeroCheck_of_decodeRegSkip (by simp) h⟩))
  case h_9 hf => exact .inr (.inl ⟨hf, n_unlisted_of_decodeFamily8 h⟩)
  case h_10 hf => exact .inr (.inr (.inr ⟨by simp [hf], zeroCheck_of_decodeRegSkip (by simp) h⟩))
  case h_15 hf => exact .inl (by simpa [hf] using kk_unlisted_of_decodeFamilyE h)
  case h_16 =>
    have hf : familyOf w = 0xF := by
      simp only [imp_false] at *
      bv_omega
    exact .inl (by simpa [hf] using kk_unlisted_of_decodeFamilyF h)
  all_goals cases h

/-- The words the decode map sends to UNRECOGNIZED are exactly the unlisted ones. -/
theorem decode_eq_unrecognized_iff {strict : Bool} {w : Word} :
    decode strict w = .unrecognized w ↔ Unlisted strict w :=
  ⟨unlisted_of_decode, fun h => decode_of_not_recognized (not_recognized_of_unlisted h)⟩

/-! ## The statements on words -/

/-- What the decoder answers is well-formed: as UNRECOGNIZED it answers only words no row selects. -/
theorem wellFormed_decode (strict : Bool) (w : Word) : wellFormed strict (decode strict w) = true := by
  rcases (decode_standsFor strict w).2 with h | h
  · rw [h, wellFormed, not_recognized_of_unlisted (unlisted_of_decode h)]
    rfl
  · exact h

/-- Settles O2: the decoder keeps every bit, and what it answers is well-formed. -/
theorem encodeOfDecodeIsIdentity : Obligations.EncodeOfDecodeIsIdentity :=
  fun strict w => ⟨(decode_standsFor strict w).1, wellFormed_decode strict w⟩

/-- No word is selected by two rows. -/
theorem row_unique {strict : Bool} {w : Word} {row row' : OpcodeRow} (hrow : row ∈ opcodeRows)
    (hrow' : row' ∈ opcodeRows) (h : rowMatches strict w row = true) (h' : rowMatches strict w row' = true) :
    row = row' :=
  rows_apart strict row hrow row' hrow' (masked_agree (rowMatches_iff.mp h) (rowMatches_iff.mp h'))

/-- The row that selects a word is that of the instruction it decodes to. -/
theorem mnemonic_decode {strict : Bool} {w : Word} {row : OpcodeRow} (hrow : row ∈ opcodeRows)
    (h : rowMatches strict w row = true) : mnemonic (decode strict w) = row.mnemonic := by
  obtain ⟨hencode, hwf⟩ := encodeOfDecodeIsIdentity strict w
  obtain ⟨u, hu⟩ | ⟨own, hown, hname⟩ := exists_row (decode strict w)
  · have hrec : recognized strict w = true := List.any_eq_true.mpr ⟨row, hrow, h⟩
    obtain rfl : u = w := by simpa [hu, encode] using hencode
    simp [hu, wellFormed, hrec] at hwf
  · have hsel := Laws.RowMatch.statement _ strict hwf own hown hname
    rw [hencode] at hsel
    rw [← hname, row_unique hown hrow hsel h]

/-- Settles O3: the row of the decoded instruction selects the word, and it is the only one. -/
theorem decodeFollowsOpcodeTable : Obligations.DecodeFollowsOpcodeTable :=
  fun _ _ => ⟨fun _ => mnemonic_decode, fun _ hrow _ hrow' => row_unique hrow hrow', decode_of_not_recognized⟩

/-- The keys of family 0x8 that are not listed, written out. -/
theorem not_mem_listedN : ∀ n : Nibble, n ∉ listedN ↔ n ∈ [0x8#4, 0x9#4, 0xA#4, 0xB#4, 0xC#4, 0xD#4, 0xF#4] := by
  decide

/-- The families keyed on `kk` one by one. -/
theorem unlistedKk_iff (f : Nibble) (kk : Byte) :
    f ∈ [0x0#4, 0xE#4, 0xF#4] ∧ kk ∉ listedKk f ↔
      (f = 0x0 ∧ kk ≠ 0xE0 ∧ kk ≠ 0xEE) ∨ (f = 0xE ∧ kk ≠ 0x9E ∧ kk ≠ 0xA1) ∨
      (f = 0xF ∧ kk ∉ [0x07#8, 0x0A#8, 0x15#8, 0x18#8, 0x1E#8, 0x29#8, 0x33#8, 0x55#8, 0x65#8]) := by
  have hkeyed : f ∈ [0x0#4, 0xE#4, 0xF#4] ↔ f = 0x0 ∨ f = 0xE ∨ f = 0xF := by simp
  rw [hkeyed, or_and_right, or_and_right]
  refine or_congr (and_congr_right fun h => ?_) (or_congr (and_congr_right fun h => ?_) (and_congr_right fun h => ?_))
  all_goals simp [h, listedKk]

/-- Settles O4: the unlisted words when no zero check is made, family by family. -/
theorem unrecognizedWordsAreTheListedOnes : Obligations.UnrecognizedWordsAreTheListedOnes := by
  intro w
  rw [decode_eq_unrecognized_iff, Unlisted, unlistedKk_iff, not_mem_listedN]
  simp only [Bool.false_eq_true, false_and, and_false, or_false]
  tauto

/-- Only families 0x0, 0x5 and 0x9 make a zero check. -/
theorem decode_strict_eq {w : Word} (h0 : familyOf w = 0x0 → xNibble w = 0)
    (hskip : familyOf w = 0x5 ∨ familyOf w = 0x9 → nOf w = 0) : decode true w = decode false w := by
  unfold decode
  split
  case h_1 hf => simp [decodeFamily0, h0 hf]
  case h_6 hf => simp [decodeRegSkip, hskip (.inl hf)]
  case h_10 hf => simp [decodeRegSkip, hskip (.inr hf)]
  all_goals rfl

/-- Settles O5: a failed zero check makes a word unlisted, and where none fails the two decoders agree. -/
theorem strictDecodingOnlyAddsZeroChecks : Obligations.StrictDecodingOnlyAddsZeroChecks := by
  refine fun w => ⟨fun ⟨hf, hx⟩ => ?_, fun ⟨hf, hn⟩ => ?_, fun h0 hskip => ?_⟩
  · exact decode_eq_unrecognized_iff.mpr (.inr (.inr (.inl ⟨hf, rfl, hx⟩)))
  · exact decode_eq_unrecognized_iff.mpr (.inr (.inr (.inr ⟨by simpa using hf, rfl, hn⟩)))
  · exact decode_strict_eq (by tauto) (by tauto)

/-- Settles O6: each word is a row's match with its operands filled in. -/
theorem specWordsDecode : Obligations.SpecWordsDecode := by
  unfold Obligations.SpecWordsDecode
  decide

end Sys2Proof
end

section
/-!
SUPPORT. How an instruction ends: with the fatal condition its row of 60 R211 raises, or else in a state that is not
fatal, with PC by the table of 30 R82, and that keeps PHASE, the fault registers, the parameters and the host's inputs.
-/

namespace Sys2Proof.Machine

/-! ## The fatal condition of an instruction (60 R211, R212) -/

/-- The fatal condition an instruction raises once fetched, by the checks `exec` makes. -/
def fatalOf (i : Instr) (s : State) : Option Fatal :=
  match i with
  | .ret _ => if s.sp.val = 0 then some ⟨.stackUnderflow, 0#16⟩ else none
  | .call _ => if s.sp.val < 16 then none else some ⟨.stackOverflow, s.pcNext⟩
  | .drw _ _ n => rangeCheck n.toNat s
  | .ldB _ => rangeCheck 3 s
  | .ldMemVx x => rangeCheck (x.val + 1) s
  | .ldVxMem x => rangeCheck (x.val + 1) s
  | _ => none

/-- An access that runs past the end of memory fails the range check, and no other does (20 R56). -/
theorem rangeCheck_eq_some_iff {count : Nat} (h0 : count ≠ 0) {s : State} {code : FaultCode} {info : Word} :
    rangeCheck count s = some ⟨code, info⟩ ↔ RunsPastMemory s count ∧ code = .memRange ∧ info = s.base := by
  unfold RunsPastMemory
  by_cases hpast : s.idx.toNat % 4096 + count > 4096
  · have hruns : s.idx.toNat % 4096 + (count - 1) > 0xFFF := by omega
    simp [rangeCheck_some h0 hpast, hruns, eq_comm]
  · have hfits : ¬ s.idx.toNat % 4096 + (count - 1) > 0xFFF := by omega
    simp [rangeCheck_none (s := s) (.inr (Nat.not_lt.mp hpast)), hfits]

/-- The checks of `exec` are the rows of 60 R211. -/
theorem raises_iff_fatalOf {i : Instr} {s : State} {code : FaultCode} {info : Word} :
    Raises i s code info ↔ fatalOf i s = some ⟨code, info⟩ := by
  constructor
  · rintro (⟨x, _, h⟩ | ⟨nnn, _, h⟩ | ⟨x, y, n, _, hn, h⟩ | ⟨x, _, h⟩ | ⟨x, _, h⟩ | ⟨x, _, h⟩)
    · exact if_pos (by rw [h]; rfl)
    · exact if_neg (by simp [h])
    · exact (rangeCheck_eq_some_iff (BitVec.toNat_ne.mp hn)).mpr ⟨h, rfl, rfl⟩
    all_goals exact (rangeCheck_eq_some_iff (by omega)).mpr ⟨h, rfl, rfl⟩
  · intro h
    cases i with
    | ret x =>
      by_cases hsp : s.sp.val = 0
      · simp only [fatalOf, if_pos hsp] at h
        cases h
        exact .ret x s (Fin.ext hsp)
      · simp [fatalOf, hsp] at h
    | call nnn =>
      by_cases hsp : s.sp.val < 16
      · simp [fatalOf, hsp] at h
      · simp only [fatalOf, if_neg hsp] at h
        cases h
        exact .call nnn s (Fin.ext (by simp; omega))
    | drw x y n =>
      by_cases hn : n = 0
      · simp [fatalOf, hn, rangeCheck] at h
      · obtain ⟨hpast, rfl, rfl⟩ := (rangeCheck_eq_some_iff (BitVec.toNat_ne.mp hn)).mp h
        exact .drw x y n s hn hpast
    | ldB x =>
      obtain ⟨hpast, rfl, rfl⟩ := (rangeCheck_eq_some_iff (by omega)).mp h
      exact .ldB x s hpast
    | ldMemVx x =>
      obtain ⟨hpast, rfl, rfl⟩ := (rangeCheck_eq_some_iff (by omega)).mp h
      exact .ldMemVx x s hpast
    | ldVxMem x =>
      obtain ⟨hpast, rfl, rfl⟩ := (rangeCheck_eq_some_iff (by omega)).mp h
      exact .ldVxMem x s hpast
    | _ => cases h

/-- Each row of 60 R211 has a code. -/
theorem Raises.code_ne_none {i : Instr} {s : State} {code : FaultCode} {info : Word} (h : Raises i s code info) :
    code ≠ .none := by
  cases h <;> simp

/-! ## The two ends of an instruction (30 R83) -/

/-- An instruction whose check fails ends in the fatal state. -/
theorem exec_of_fatalOf {i : Instr} {s : State} {f : Fatal} (h : fatalOf i s = some f) :
    exec i s = .next (raiseFatal f (encode i) s) := by
  have commit {check : Option Fatal} {t : State} (hc : check = some f) :
      commitUnless check i s t = .next (raiseFatal f (encode i) s) := by rw [hc, commitUnless_some]
  cases i with
  | ret x =>
    by_cases hsp : s.sp.val = 0
    · simp only [fatalOf, if_pos hsp] at h
      cases h
      exact exec_ret_underflow x hsp
    · simp [fatalOf, hsp] at h
  | call nnn =>
    by_cases hsp : s.sp.val < 16
    · simp [fatalOf, hsp] at h
    · simp only [fatalOf, if_neg hsp] at h
      cases h
      exact exec_call_overflow nnn hsp
  | drw x y n => exact commit h
  | ldB x => exact commit h
  | ldMemVx x => exact commit h
  | ldVxMem x => exact commit h
  | _ => cases h

/-- `t` is an end of instruction `i` from `s` that is not fatal: PC is the one of 30 R82, and PHASE, the fault
registers, the parameters, the inputs and the inbox are as before. -/
structure Completes (i : Instr) (s t : State) : Prop where
  result : t.result ≠ .fatal
  pc     : t.pc = pcAfter i s
  keeps  : t = { s with
    v := t.v, idx := t.idx, pc := t.pc, dt := t.dt, st := t.st, stack := t.stack, sp := t.sp, mem := t.mem, fb := t.fb,
    result := t.result, draws := t.draws }

/-- A step that ends with `complete` is not fatal. -/
theorem completes_complete {i : Instr} {s u : State} {w : Word} (hpc : w = pcAfter i s)
    (hkeeps : u = { s with
      v := u.v, idx := u.idx, dt := u.dt, st := u.st, stack := u.stack, sp := u.sp, mem := u.mem, fb := u.fb,
      draws := u.draws }) : Completes i s (complete w u) :=
  ⟨by simp, hpc, by rw [hkeeps]; rfl⟩

/-- The flag write changes registers only. -/
theorem completes_flag {i : Instr} {s : State} (x : Reg) (flag : Bool) (res : Byte) (hpc : s.pcNext = pcAfter i s) :
    Completes i s (complete s.pcNext (writeFlagAndDest x flag res s)) :=
  completes_complete hpc (by rw [writeFlagAndDest_eq])

/-- The target of Bnnn is the exact sum (40 R100). -/
theorem jumpV0Target_eq (nnn : Addr) (s : State) :
    jumpV0Target nnn s = BitVec.ofNat 16 (nnn.toNat + (s.getV 0).toNat) := by
  rw [← jumpV0Target_toNat, BitVec.ofNat_toNat, BitVec.setWidth_eq]

/-- An instruction whose check passes ends without a fault. -/
theorem exec_completes {i : Instr} {s : State} (h : fatalOf i s = none) :
    ∃ t, exec i s = .next t ∧ Completes i s t := by
  have commit {check : Option Fatal} {t : State} (hc : check = none) : commitUnless check i s t = .next t := by
    rw [hc, commitUnless_none]
  cases i with
  | ret x =>
    have hsp : s.sp.val ≠ 0 := by
      intro h0
      simp [fatalOf, h0] at h
    exact ⟨_, exec_ret_ok x hsp, completes_complete (by simp [pcAfter, hsp]) rfl⟩
  | call nnn =>
    have hsp : s.sp.val < 16 := by
      by_contra h16
      simp [fatalOf, h16] at h
    exact ⟨_, exec_call_ok nnn hsp, completes_complete rfl rfl⟩
  | ldVxK x =>
    by_cases hk : s.keys = 0#16
    · exact ⟨_, exec_ldVxK_wait x hk, by simp, by simp [pcAfter, hk], rfl⟩
    · obtain ⟨k, -, hexec⟩ := exec_ldVxK_take x hk
      exact ⟨_, hexec, completes_complete (by simp [pcAfter, hk, State.pcNext]) rfl⟩
  | seImm | sneImm | seReg | sneReg | skp | sknp =>
    exact ⟨_, rfl, completes_complete (by simp [pcAfter, State.pcSkip]) rfl⟩
  | jpV0 nnn => exact ⟨_, rfl, completes_complete (jumpV0Target_eq nnn s) rfl⟩
  | addReg | sub | shr | subn | shl => exact ⟨_, rfl, completes_flag _ _ _ rfl⟩
  | drw x y n => exact ⟨_, commit h, completes_complete rfl rfl⟩
  | ldB x => exact ⟨_, commit h, completes_complete rfl rfl⟩
  | ldMemVx x => exact ⟨_, commit h, completes_complete rfl rfl⟩
  | ldVxMem x => exact ⟨_, commit h, completes_complete rfl rfl⟩
  | _ => exact ⟨_, rfl, completes_complete rfl rfl⟩

/-- Every instruction raises its fatal condition or completes. -/
theorem exec_cases {i : Instr} {s t : State} (h : exec i s = .next t) :
    (∃ f, fatalOf i s = some f ∧ t = raiseFatal f (encode i) s) ∨ (fatalOf i s = none ∧ Completes i s t) := by
  cases hf : fatalOf i s with
  | some f => exact .inl ⟨f, rfl, Host.Outcome.next.inj (h.symm.trans (exec_of_fatalOf hf))⟩
  | none =>
    obtain ⟨u, hu, hend⟩ := exec_completes hf
    obtain rfl : u = t := Host.Outcome.next.inj (hu.symm.trans h)
    exact .inr ⟨rfl, hend⟩

/-! ## The statements -/

/-- Settles O12: a fatal end is the fatal state of the instruction's own condition. -/
theorem faultsArePrecise : Obligations.FaultsArePrecise := by
  intro i s t h hfatal
  rcases exec_cases h with ⟨f, hf, rfl⟩ | ⟨-, hend⟩
  · exact ⟨f.code, f.info, (raises_iff_fatalOf.mpr hf).code_ne_none, raisedFrom_raiseFatal f _ s⟩
  · exact absurd hfatal hend.result

/-- Settles O13: the conditions of the table are the checks of `exec`, and an instruction whose check passes is not
fatal. -/
theorem onlyTheseInstructionsFault : Obligations.OnlyTheseInstructionsFault := by
  intro i s
  cases hf : fatalOf i s with
  | some f =>
    refine ⟨_, exec_of_fatalOf hf, fun code info h => ?_, fun hnone => ?_⟩
    · obtain rfl : f = ⟨code, info⟩ := Option.some.inj (hf.symm.trans (raises_iff_fatalOf.mp h))
      exact raisedFrom_raiseFatal ..
    · exact absurd ⟨f.code, f.info, raises_iff_fatalOf.mpr hf⟩ hnone
  | none =>
    obtain ⟨t, ht, hend⟩ := exec_completes hf
    refine ⟨t, ht, fun code info h => ?_, fun _ => hend.result⟩
    rw [raises_iff_fatalOf, hf] at h
    cases h

/-- Settles O14: an end that is not fatal has the PC of the table. -/
theorem pcAfterEveryInstruction : Obligations.PcAfterEveryInstruction := by
  intro i s t h hresult
  rcases exec_cases h with ⟨f, -, rfl⟩ | ⟨-, hend⟩
  · exact absurd rfl hresult
  · exact hend.pc

end Sys2Proof.Machine
end

section
/-!
SUPPORT. What an instruction can see: the key snapshot only in Ex9E, ExA1 and Fx0A, the random byte only in Cxkk, and of
the call stack only the entries below SP (spec 10 R26, R34, 60 R218).
-/

namespace Sys2Proof.Machine

section
variable {i : Instr} {s t : State}

/-! ## What an instruction keeps -/

/-- No instruction writes the parameters or the inputs of its STEP. -/
theorem exec_keeps_inputs (h : exec i s = .next t) : t.params = s.params ∧ t.keys = s.keys ∧ t.rnd = s.rnd := by
  rcases exec_cases h with ⟨f, -, rfl⟩ | ⟨-, hend⟩
  · exact ⟨rfl, rfl, rfl⟩
  · rw [hend.keeps]
    exact ⟨rfl, rfl, rfl⟩

/-- Only a call and a return write SP or a stack entry. -/
theorem not_written_stack (hret : ∀ x, i ≠ .ret x) (hcall : ∀ nnn, i ≠ .call nnn) :
    ¬ Written i s .sp ∧ ∀ j, ¬ Written i s (.stack j) := by
  cases i with
  | ret x => exact absurd rfl (hret x)
  | call nnn => exact absurd rfl (hcall nnn)
  | _ => simp [Written]

/-- An instruction other than a call or a return keeps the whole call stack. -/
theorem exec_keeps_stack (hret : ∀ x, i ≠ .ret x) (hcall : ∀ nnn, i ≠ .call nnn) (h : exec i s = .next t) :
    t.sp = s.sp ∧ t.stack = s.stack := by
  obtain ⟨hsp, hstack⟩ := not_written_stack (s := s) hret hcall
  rcases exec_cases h with ⟨f, -, rfl⟩ | ⟨-, hend⟩
  · exact ⟨rfl, rfl⟩
  · obtain ⟨hlook, -⟩ := (instructionsWriteOnlyTheirPieces i s t h).1 hend.result
    exact ⟨Fin.ext (hlook .sp hsp),
      Vector.ext fun j hj => BitVec.eq_of_toNat_eq (hlook (.stack ⟨j, hj⟩) (hstack ⟨j, hj⟩))⟩

/-! ## States that differ in what is not seen -/

/-- The state with another key snapshot, another random byte and other stack entries. -/
def overlay (keys : Word) (rnd : Byte) (stack : Vector Word 16) (s : State) : State :=
  { s with keys := keys, rnd := rnd, stack := stack }

variable {keys : Word} {rnd : Byte} {stack : Vector Word 16}

theorem overlay_params : (overlay keys rnd stack s).params = s.params := rfl

/-- The flag write neither reads nor writes what `overlay` replaces. -/
theorem writeFlagAndDest_overlay (x : Reg) (flag : Bool) (res : Byte) :
    writeFlagAndDest x flag res (overlay keys rnd stack s) =
      overlay keys rnd stack (writeFlagAndDest x flag res s) := by
  unfold writeFlagAndDest
  rw [overlay_params]
  cases s.params.vfOrder <;> rfl

/-- Nor does the end of an instruction with a check. -/
theorem commitUnless_overlay {check : Option Fatal} {u : State} (h : commitUnless check i s u = .next t) :
    commitUnless check i (overlay keys rnd stack s) (overlay keys rnd stack u) =
      .next (overlay keys rnd stack t) := by
  cases check <;> obtain rfl := Host.Outcome.next.inj h <;> rfl

/-- The choice of a key reads the snapshot, and nothing else `overlay` replaces. -/
theorem exec_ldVxK_overlay {x : Reg} (h : exec (.ldVxK x) s = .next t) :
    exec (.ldVxK x) (overlay s.keys rnd stack s) = .next (overlay s.keys rnd stack t) := by
  have hchoice : chooseKey (overlay s.keys rnd stack s).draws (overlay s.keys rnd stack s).pressedKeys =
      chooseKey s.draws s.pressedKeys := rfl
  simp only [exec, execLdVxK] at h ⊢
  rw [hchoice]
  cases hc : chooseKey s.draws s.pressedKeys <;> rw [hc] at h <;> obtain rfl := Host.Outcome.next.inj h <;> rfl

/-- An instruction other than a call or a return does the same under an `overlay` of what it does not read. -/
theorem exec_overlay (hret : ∀ x, i ≠ .ret x) (hcall : ∀ nnn, i ≠ .call nnn)
    (hkeys : (∀ x, i ≠ .skp x ∧ i ≠ .sknp x ∧ i ≠ .ldVxK x) ∨ keys = s.keys)
    (hrnd : (∀ x kk, i ≠ .rnd x kk) ∨ rnd = s.rnd) (h : exec i s = .next t) :
    exec i (overlay keys rnd stack s) = .next (overlay keys rnd stack t) := by
  cases i with
  | ret x => exact absurd rfl (hret x)
  | call nnn => exact absurd rfl (hcall nnn)
  | skp x | sknp x =>
    obtain rfl := hkeys.resolve_left fun hno => by simpa using hno x
    obtain rfl := Host.Outcome.next.inj h
    rfl
  | ldVxK x =>
    obtain rfl := hkeys.resolve_left fun hno => by simpa using hno x
    exact exec_ldVxK_overlay h
  | rnd x kk =>
    obtain rfl := hrnd.resolve_left fun hno => hno x kk rfl
    obtain rfl := Host.Outcome.next.inj h
    rfl
  | addReg | sub | shr | subn | shl =>
    obtain rfl := Host.Outcome.next.inj h
    exact congrArg (fun u => Host.Outcome.next (complete s.pcNext u)) (writeFlagAndDest_overlay ..)
  | drw => exact commitUnless_overlay h
  | ldB => exact commitUnless_overlay h
  | ldMemVx => exact commitUnless_overlay h
  | ldVxMem => exact commitUnless_overlay h
  | _ =>
    obtain rfl := Host.Outcome.next.inj h
    rfl

/-- The stack `stack` has the valid entries of `s`. -/
def LiveEq (stack : Vector Word 16) (s : State) : Prop := ∀ j : Fin 16, j.val < s.sp.val → stack[j] = s.stack[j]

/-- A return reads the top entry, which is a valid one. -/
theorem exec_ret_overlay {x : Nibble} (hlive : LiveEq stack s) (h : exec (.ret x) s = .next t) :
    exec (.ret x) (overlay keys rnd stack s) = .next (overlay keys rnd stack t) ∧ LiveEq stack t ∧
      t.stack = s.stack := by
  by_cases hsp : s.sp.val = 0
  · obtain rfl := Host.Outcome.next.inj ((exec_ret_underflow x hsp).symm.trans h)
    exact ⟨exec_ret_underflow x (s := overlay keys rnd stack s) hsp, hlive, rfl⟩
  · obtain rfl := Host.Outcome.next.inj ((exec_ret_ok x hsp).symm.trans h)
    have htop : stack[s.sp.val - 1]'(by omega) = s.stack[s.sp.val - 1]'(by omega) :=
      hlive ⟨s.sp.val - 1, by omega⟩ (Nat.sub_one_lt hsp)
    refine ⟨(exec_ret_ok x (s := overlay keys rnd stack s) hsp).trans ?_, fun j hj => hlive j ?_, rfl⟩
    · change Host.Outcome.next (complete (stack[s.sp.val - 1]'(by omega)) _) = _
      rw [htop]
      rfl
    · exact Nat.lt_of_lt_of_le hj (Nat.sub_le ..)

/-- A call that pushes writes the same entry whatever the dead ones hold. -/
theorem exec_call_overlay {nnn : Addr} (hlive : LiveEq stack s) (h : exec (.call nnn) s = .next t) :
    ∃ stack', exec (.call nnn) (overlay keys rnd stack s) = .next (overlay keys rnd stack' t) ∧ LiveEq stack' t ∧
      (stack = s.stack → stack' = t.stack) := by
  by_cases hsp : s.sp.val < 16
  · obtain rfl := Host.Outcome.next.inj ((exec_call_ok nnn hsp).symm.trans h)
    refine ⟨_, exec_call_ok nnn (s := overlay keys rnd stack s) hsp, fun j hj => ?_, ?_⟩
    · have hj' : j.val < s.sp.val + 1 := hj
      change (stack.set s.sp.val s.pcNext hsp)[j.val] = (s.stack.set s.sp.val s.pcNext hsp)[j.val]
      rw [Vector.getElem_set, Vector.getElem_set]
      split
      · rfl
      · exact hlive j (by omega)
    · rintro rfl
      rfl
  · obtain rfl := Host.Outcome.next.inj ((exec_call_overflow nnn hsp).symm.trans h)
    exact ⟨stack, exec_call_overflow nnn (s := overlay keys rnd stack s) hsp, hlive, id⟩

/-- Every instruction does the same under an `overlay` of what it does not read, dead stack entries among it. -/
theorem exec_overlay_live (hlive : LiveEq stack s)
    (hkeys : (∀ x, i ≠ .skp x ∧ i ≠ .sknp x ∧ i ≠ .ldVxK x) ∨ keys = s.keys)
    (hrnd : (∀ x kk, i ≠ .rnd x kk) ∨ rnd = s.rnd) (h : exec i s = .next t) :
    ∃ stack', exec i (overlay keys rnd stack s) = .next (overlay keys rnd stack' t) ∧ LiveEq stack' t ∧
      (stack = s.stack → stack' = t.stack) := by
  by_cases hret : ∃ x, i = .ret x
  · obtain ⟨x, rfl⟩ := hret
    obtain ⟨hexec, hlive', hstack⟩ := exec_ret_overlay hlive h
    exact ⟨stack, hexec, hlive', fun e => e.trans hstack.symm⟩
  by_cases hcall : ∃ nnn, i = .call nnn
  · obtain ⟨nnn, rfl⟩ := hcall
    exact exec_call_overlay hlive h
  · push Not at hret hcall
    obtain ⟨hsp, hstack⟩ := exec_keeps_stack hret hcall h
    refine ⟨stack, exec_overlay hret hcall hkeys hrnd h, ?_, fun e => e.trans hstack.symm⟩
    rwa [LiveEq, hsp, hstack]

end

/-! ## The statements -/

/-- Settles O16: the overlay of another snapshot and the state's own random byte and stack. -/
theorem keysSeenOnlyByKeyInstructions : Obligations.KeysSeenOnlyByKeyInstructions := by
  intro i s t keys h hskp hsknp hldVxK
  obtain ⟨stack, hexec, -, hstack⟩ := exec_overlay_live (keys := keys) (rnd := s.rnd) (stack := s.stack)
    (fun _ _ => rfl) (.inl fun x => ⟨hskp x, hsknp x, hldVxK x⟩) (.inr rfl) h
  obtain ⟨-, -, hr⟩ := exec_keeps_inputs h
  have hsame : overlay keys s.rnd t.stack t = { t with keys := keys } := by
    rw [← hr]
    rfl
  rw [hstack rfl, hsame] at hexec
  exact hexec

/-- Settles O17: the overlay of another random byte and the state's own snapshot and stack. -/
theorem randomByteSeenOnlyByRnd : Obligations.RandomByteSeenOnlyByRnd := by
  intro i s t rnd h hrnd
  obtain ⟨stack, hexec, -, hstack⟩ := exec_overlay_live (keys := s.keys) (rnd := rnd) (stack := s.stack)
    (fun _ _ => rfl) (.inr rfl) (.inl hrnd) h
  obtain ⟨-, hk, -⟩ := exec_keeps_inputs h
  have hsame : overlay s.keys rnd t.stack t = { t with rnd := rnd } := by
    rw [← hk]
    rfl
  rw [hstack rfl, hsame] at hexec
  exact hexec

/-- Settles O18: the overlay of a stack with the same valid entries and the state's own inputs. -/
theorem deadStackEntriesUnobservable : Obligations.DeadStackEntriesUnobservable := by
  rintro i s s' t ⟨hs', hlive⟩ h
  obtain ⟨stack, hexec, hlive', -⟩ := exec_overlay_live (keys := s.keys) (rnd := s.rnd) hlive (.inr rfl) (.inr rfl) h
  obtain ⟨-, hk, hr⟩ := exec_keeps_inputs h
  rw [hs']
  refine ⟨_, hexec, ?_, hlive'⟩
  rw [← hk, ← hr]
  rfl

end Sys2Proof.Machine
end

section
/-!
SUPPORT. Values written and read back: through the call stack, through memory, and from there by the next fetch; the
bits a shift moves out; the key Fx0A takes and the moves of the timers (spec 20 R59-R64, 40 R93-R95, 41 R119-R121,
42 R144-R145, 44 R183-R186).
-/

namespace Sys2Proof.Machine

/-! ## The call stack and memory -/

/-- Settles O23: the return pops the entry the call pushed, and the push changed no entry below it. -/
theorem returnUndoesCall : Obligations.ReturnUndoesCall := by
  intro nnn x s u hroom
  refine ⟨_, exec_call_ok nnn hroom, fun hsp hstack => ?_⟩
  have hsp' : u.sp.val = s.sp.val + 1 := congrArg Fin.val hsp
  have hstack' : u.stack = s.stack.set s.sp.val s.pcNext hroom := hstack
  refine ⟨_, exec_ret_ok x (by omega), ?_, Fin.ext ?_, fun j hj => ?_⟩
  · simp [hsp', hstack', State.pcNext]
  · simp [hsp']
  · simp only [complete_stack, hstack']
    exact Vector.getElem_set_ne hroom j.isLt (by omega)

/-- Settles O39: the load reads at EA(0) to EA(x) what the store put there. -/
theorem loadRestoresStoredRegisters : Obligations.LoadRestoresStoredRegisters := by
  intro x s u hwf hfits
  have hfits' : s.idx.toNat % 4096 + (x.val + 1) ≤ 4096 := by omega
  refine ⟨_, exec_ldMemVx_ok x hfits', fun hmem hidx => ?_⟩
  refine ⟨_, exec_ldVxMem_ok x (by rwa [hidx]), fun k hk => ?_⟩
  have hea : u.ea k.val = s.ea k.val := by rw [ea_eq, ea_eq, hidx]
  change (loadedRegisters x u)[k] = s.getV k
  rw [loadedRegisters_getElem, if_pos hk, hea, hmem]
  exact read_storedRegister hwf hfits' hk

/-- Settles O40: EA(k) and EA(k + 1) are the two addresses the fetch reads, and both hold stored registers. -/
theorem storeIsSeenByNextFetch : Obligations.StoreIsSeenByNextFetch := by
  intro x k s hwf hfits hk hnext
  have hfits' : s.idx.toNat % 4096 + (x.val + 1) ≤ 4096 := by omega
  refine ⟨_, exec_ldMemVx_ok x hfits', ?_⟩
  have hpc : s.pcNext.toNat = s.ea k.val := by
    rw [ea_eq] at hnext ⊢
    rw [State.pcNext, BitVec.toNat_add, BitVec.toNat_ofNat]
    omega
  have hhigh := read_storedRegister hwf hfits' (k := k) (Fin.le_def.mpr (by omega))
  have hlow := read_storedRegister hwf hfits' (k := ⟨k.val + 1, by omega⟩) hk
  rw [fetchInstr]
  simp only [complete_pc, complete_mem, complete_params, hpc]
  rw [hhigh, show s.ea k.val + 1 = s.ea (k.val + 1) from Nat.add_assoc .., hlow]

/-- Settles O41: canonical memory is needed only at the address written, where a listed byte is replaced. -/
theorem memoryReadAfterWrite : Obligations.MemoryReadAfterWrite := by
  intro m a k b hwf
  split
  · next h =>
    rw [h]
    exact read_write_same b hwf
  · next h => exact read_write_of_ne h b m

/-! ## Shifts (41 R119, R121) -/

theorem flagByte_toNat (flag : Bool) : (flagByte flag).toNat = flag.toNat := by cases flag <;> rfl

theorem shiftedOutRight_toNat (a : Byte) : (shiftedOutRight a).toNat = a.toNat % 2 := by
  have hbit : shiftedOutRight a = decide (a.toNat % 2 = 1) := Nat.testBit_zero _
  rcases Nat.mod_two_eq_zero_or_one a.toNat with h | h <;> rw [hbit, h] <;> rfl

theorem shiftedOutLeft_toNat (a : Byte) : (shiftedOutLeft a).toNat = a.toNat / 128 := by
  have hbit : shiftedOutLeft a = decide (a.toNat / 128 % 2 = 1) := Nat.testBit_eq_decide_div_mod_eq
  have ha := a.isLt
  rcases (by omega : a.toNat / 128 = 0 ∨ a.toNat / 128 = 1) with h | h <;> rw [hbit, h] <;> rfl

/-- The operand of a shift is the register `SHIFT_SOURCE` names. -/
theorem shiftOperand_eq (x y : Reg) (s : State) :
    shiftOperand x y s = s.getV (if s.params.shiftSource = .vx then x else y) := by
  unfold shiftOperand
  cases s.params.shiftSource <;> rfl

/-- An instruction whose results are a register and VF, both given as numbers. -/
theorem finishFlag_toNat (x : Reg) {flag : Bool} {res : Byte} {f r : Nat} (hf : flag.toNat = f) (hr : res.toNat = r)
    (s : State) :
    ∃ t, finishFlag x flag res s = .next t ∧
      (x ≠ 15 ∨ s.params.vfOrder = .destLast → (t.getV x).toNat = r) ∧
      (x ≠ 15 ∨ s.params.vfOrder = .flagLast → (t.getV 15).toNat = f) ∧
      t.pc = s.pc + 2 ∧ t.result = .ok ∧ FrameExcept (· ∈ [.pc, .v x, .v 15]) s t := by
  obtain ⟨t, hnext, hdest, hflag, hrest⟩ := finishFlag_next x flag res s
  refine ⟨t, hnext, fun h => ?_, fun h => ?_, hrest⟩
  · rw [hdest h, hr]
  · rw [hflag h, flagByte_toNat, hf]

/-- Settles O32: each shift is halving or doubling its operand, with the bit shifted out as the flag. -/
theorem shiftsTakeBitShiftedOut : Obligations.ShiftsTakeBitShiftedOut := by
  intro x y s a
  have ha : (shiftOperand x y s).toNat = a := congrArg BitVec.toNat (shiftOperand_eq x y s)
  have hright : (shiftOperand x y s >>> 1).toNat = a / 2 := by
    rw [BitVec.toNat_ushiftRight, Nat.shiftRight_one, ha]
  have hleft : (shiftOperand x y s <<< 1).toNat = 2 * a % 256 := by
    rw [BitVec.toNat_shiftLeft, Nat.shiftLeft_eq, ha, Nat.mul_comm]
  exact ⟨decode_shr x y, decode_shl x y,
    finishFlag_toNat x ((shiftedOutRight_toNat _).trans (by rw [ha])) hright s,
    finishFlag_toNat x ((shiftedOutLeft_toNat _).trans (by rw [ha])) hleft s⟩

/-! ## Keys and timers (44 R183-R186) -/

/-- Settles O47: the choice answers nothing exactly when no key is pressed, and else one of the pressed keys. -/
theorem waitForKey : Obligations.WaitForKey := by
  refine fun x s => ⟨decode_ldVxK x, exec_ldVxK_wait x, fun h => ?_⟩
  obtain ⟨k, hpressed, hexec⟩ := exec_ldVxK_take x h
  have hvalue : (BitVec.ofNat 8 k.val).toNat = k.val := by
    rw [BitVec.toNat_ofNat]
    omega
  refine ⟨_, hexec, ?_, ?_, rfl, rfl, frame_of_exec_ok hexec rfl fun p hp => by simpa [Written] using hp⟩
  · simp [hvalue]
  · simpa [hvalue] using hpressed

/-- Settles O48: each move is one write and the end of the step. -/
theorem timerMoves : Obligations.TimerMoves := by
  intro x s
  have hdt := (frame_dt (s.getV x) s).andThen (frame_complete s.pcNext _)
  have hst := (frame_st (s.getV x) s).andThen (frame_complete s.pcNext _)
  have hsound : (s.getV x != 0#8) = true ↔ s.getV x ≠ 0 := bne_iff_ne
  exact ⟨decode_ldVxDt x, decode_ldDtVx x, decode_ldStVx x, finishV_next x s.dt s,
    ⟨_, rfl, rfl, rfl, rfl, hdt.mono fun p hp => by simpa using hp⟩,
    ⟨_, rfl, rfl, hsound, rfl, rfl, hst.mono fun p hp => by simpa using hp⟩⟩

end Sys2Proof.Machine
end

section
/-!
SUPPORT. Dxyn: the blit's hits are the pixels the sprite covers, so a draw toggles exactly those and its collision looks
at exactly those; a second draw of the same sprite toggles them back (spec 43 R162-R168).
-/

namespace Sys2Proof.Machine

section
variable {x y : Reg} {n : Nibble} {s u : State}

/-! ## The sprite on the framebuffer -/

/-- A sprite has at most 15 rows, so no two of its rows fall on one row of the framebuffer. -/
theorem spriteRows_length_le (n : Nibble) (s : State) : (s.spriteRows n.toNat).length ≤ 32 := by
  simp only [State.spriteRows, List.length_map, List.length_range]
  omega

/-- The hits of the blit, in coordinates modulo the dimensions, are the pixels the sprite covers. -/
theorem spriteHits_iff_covers (r : Fin 32) (c : Fin 64) {r' c' : Nat} (hr : r' % 32 = r.val) (hc : c' % 64 = c.val) :
    SpriteHits (s.spriteRows n.toNat) (s.getV y).toNat (s.getV x).toNat r' c' ↔ SpriteCovers s x y n r c := by
  simp only [SpriteHits, RowHits, SpriteCovers, spriteBit, State.spriteRows, List.length_map, List.length_range,
    List.getElem_map, List.getElem_range, hr, hc, exists_prop]

/-- A draw toggles the pixels the sprite covers and no other (43 R163). -/
theorem drawn_pixel (r : Fin 32) (c : Fin 64) :
    (SpriteCovers s x y n r c → (drawn x y n s).1.pixel r.val c.val = !s.fb.pixel r.val c.val) ∧
    (¬ SpriteCovers s x y n r c → (drawn x y n s).1.pixel r.val c.val = s.fb.pixel r.val c.val) := by
  have hblit := blitSprite_spec _ (s.getV y).toNat (s.getV x).toNat (spriteRows_length_le n s) (s.fb, false)
  have hpixel := hblit.1 r.val c.val
  rwa [spriteHits_iff_covers r c (Nat.mod_eq_of_lt r.isLt) (Nat.mod_eq_of_lt c.isLt)] at hpixel

/-- The collision is 1 exactly when some pixel the sprite covers was on before the draw (43 R164). -/
theorem drawn_collision :
    (drawn x y n s).2 = true ↔ ∃ r c, SpriteCovers s x y n r c ∧ s.fb.pixel r.val c.val = true := by
  refine (blitSprite_spec _ (s.getV y).toNat (s.getV x).toNat (spriteRows_length_le n s) (s.fb, false)).2.trans ?_
  simp only [Bool.false_eq_true, false_or]
  constructor
  · rintro ⟨r', c', hhits, hon⟩
    let r : Fin 32 := ⟨r' % 32, Nat.mod_lt _ (by decide)⟩
    let c : Fin 64 := ⟨c' % 64, Nat.mod_lt _ (by decide)⟩
    refine ⟨r, c, (spriteHits_iff_covers r c rfl rfl).mp hhits, ?_⟩
    rwa [pixel_congr s.fb (Nat.mod_mod ..) (Nat.mod_mod ..)]
  · rintro ⟨r, c, hcovers, hon⟩
    exact ⟨r.val, c.val,
      (spriteHits_iff_covers r c (Nat.mod_eq_of_lt r.isLt) (Nat.mod_eq_of_lt c.isLt)).mpr hcovers, hon⟩

/-- What a sprite covers depends on I, on V[x] and V[y] and on the sprite's bytes. -/
theorem spriteCovers_congr (hmem : u.mem = s.mem) (hidx : u.idx = s.idx) (hx : u.getV x = s.getV x)
    (hy : u.getV y = s.getV y) (r : Fin 32) (c : Fin 64) : SpriteCovers u x y n r c ↔ SpriteCovers s x y n r c := by
  simp only [SpriteCovers, ea_eq, hmem, hidx, hx, hy]

/-- Drawing again over a drawn sprite gives back the framebuffer before the first draw (43 R168). -/
theorem drawn_drawn (hfb : u.fb = (drawn x y n s).1)
    (hsame : ∀ r c, SpriteCovers u x y n r c ↔ SpriteCovers s x y n r c) :
    (drawn x y n u).1 = s.fb := by
  refine framebuffer_ext fun r c hr hc => ?_
  obtain ⟨hon, hoff⟩ := drawn_pixel (x := x) (y := y) (n := n) (s := s) ⟨r, hr⟩ ⟨c, hc⟩
  obtain ⟨hon', hoff'⟩ := drawn_pixel (x := x) (y := y) (n := n) (s := u) ⟨r, hr⟩ ⟨c, hc⟩
  rw [hsame, hfb] at hon' hoff'
  by_cases hcovers : SpriteCovers s x y n ⟨r, hr⟩ ⟨c, hc⟩
  · exact (hon' hcovers).trans (by rw [hon hcovers, Bool.not_not])
  · exact (hoff' hcovers).trans (hoff hcovers)

/-! ## The end of a draw -/

/-- A draw whose sprite lies within memory ends OK, with the drawn framebuffer and the collision in VF. -/
theorem exec_drw_next (h : n = 0 ∨ s.idx.toNat % 4096 + n.toNat ≤ 4096) :
    ∃ t, exec (.drw x y n) s = .next t ∧ t.fb = (drawn x y n s).1 ∧
      t.getV 15 = flagByte (drawn x y n s).2 ∧ t.pc = s.pc + 2 ∧ t.result = .ok ∧
      FrameExcept (fun p => p = .pc ∨ p = .v 15 ∨ ∃ r c, p = .pixel r c) s t := by
  have hexec := exec_drw_ok x y (s := s) (h.imp_left fun h0 : n = 0 => by rw [h0]; rfl)
  exact ⟨_, hexec, rfl, getV_setV_same vf _ _, rfl, rfl, frame_of_exec_ok hexec rfl fun _ => id⟩

/-- A draw that ended OK had its sprite within memory. -/
theorem fits_of_exec_drw {t : State} (h : exec (.drw x y n) s = .next t) (hok : t.result = .ok) :
    n = 0 ∨ s.idx.toNat % 4096 + n.toNat ≤ 4096 := by
  by_contra hpast
  rw [not_or] at hpast
  obtain ⟨h0, hpast⟩ := hpast
  have hfatal := exec_drw_range x y (BitVec.toNat_ne.mp h0) (Nat.lt_of_not_le hpast)
  obtain rfl := Host.Outcome.next.inj (hfatal.symm.trans h)
  cases hok

/-- VF holds 1 where the flag's condition holds. -/
theorem flagByte_eq_one_of {flag : Bool} {P : Prop} (hflag : flag = true ↔ P) (h : P) : flagByte flag = 1 := by
  rw [hflag.mpr h]
  rfl

/-- VF holds 0 where the flag's condition fails. -/
theorem flagByte_eq_zero_of_not {flag : Bool} {P : Prop} (hflag : flag = true ↔ P) (h : ¬ P) : flagByte flag = 0 := by
  rw [Bool.eq_false_iff.mpr fun htrue => h (hflag.mp htrue)]
  rfl

end

/-! ## The statements -/

/-- Settles O43: the drawn framebuffer and its collision, or the fatal state where the sprite passes the end of
memory. -/
theorem drawXorsSprite : Obligations.DrawXorsSprite := by
  refine fun x y n s => ⟨decode_drw x y n, fun hfits => ?_, fun h0 hpast => ?_⟩
  · obtain ⟨t, hexec, hfb, hvf, hrest⟩ := exec_drw_next (x := x) (y := y) hfits
    refine ⟨t, hexec, fun r c h => ?_, fun r c h => ?_, fun h => ?_, fun h => ?_, hrest⟩
    · rw [hfb, (drawn_pixel r c).1 h]
    · rw [hfb, (drawn_pixel r c).2 h]
    · rw [hvf, flagByte_eq_one_of drawn_collision h]
    · rw [hvf, flagByte_eq_zero_of_not drawn_collision h]
  · exact ⟨_, exec_drw_range x y (BitVec.toNat_ne.mp h0) hpast, raisedFrom_raiseFatal ..⟩

/-- Settles O44: the blit of no rows leaves the framebuffer and the collision as they are. -/
theorem drawOfNoRows : Obligations.DrawOfNoRows := by
  intro x y s
  have hexec := exec_drw_ok x y (n := 0) (s := s) (.inl rfl)
  have hframe := (frame_setV vf 0#8 s).andThen (frame_complete s.pcNext _)
  exact ⟨_, hexec, getV_setV_same vf 0#8 s, rfl, rfl, hframe.mono fun p hp => by simpa using hp⟩

/-- Settles O45: both draws cover the same pixels, so the second toggles them back and collides where the first found
a pixel off. -/
theorem secondDrawRestores : Obligations.SecondDrawRestores := by
  intro x y n s t u h hok hfb hmem hidx hx hy
  have hfits := fits_of_exec_drw h hok
  obtain ⟨t', ht', htfb, -⟩ := exec_drw_next (x := x) (y := y) hfits
  obtain rfl : t' = t := Host.Outcome.next.inj (ht'.symm.trans h)
  have hufb : u.fb = (drawn x y n s).1 := hfb.trans htfb
  have hsame := spriteCovers_congr (n := n) hmem hidx hx hy
  have hcollision : (drawn x y n u).2 = true ↔ ∃ r c, SpriteCovers s x y n r c ∧ s.fb.pixel r.val c.val = false := by
    rw [drawn_collision, hufb]
    refine exists_congr fun r => exists_congr fun c => ?_
    rw [hsame]
    refine and_congr_right fun hcovers => ?_
    rw [(drawn_pixel r c).1 hcovers, Bool.not_eq_true']
  obtain ⟨u', hexec, hfb', hvf, -, hok', -⟩ := exec_drw_next (x := x) (y := y) (n := n) (s := u) (by rwa [hidx])
  refine ⟨u', hexec, hok', hfb'.trans (drawn_drawn hufb hsame), fun hoff => ?_, fun hnone => ?_⟩
  · rw [hvf, flagByte_eq_one_of hcollision hoff]
  · rw [hvf, flagByte_eq_zero_of_not hcollision hnone]

end Sys2Proof.Machine
end

section
/-!
SUPPORT. Commands and phases: which commands a phase refuses, PHASE after each command, and the commands that change
nothing (spec 10 R30, R35-R38, 30 R81, 60 R214, 70 R265).
-/

namespace Sys2Proof.Machine

/-! ## What a command answers -/

/-- An instruction enters HALTED when it is fatal and keeps PHASE otherwise. -/
theorem exec_phase {i : Instr} {s t : State} (h : exec i s = .next t) :
    t.phase = if t.result = .fatal then .halted else s.phase := by
  rcases exec_cases h with ⟨f, -, rfl⟩ | ⟨-, hend⟩
  · rfl
  · rw [if_neg hend.result, hend.keeps]

/-- The same of a STEP, where the fetch may be what is fatal. -/
theorem stepInstr_phase (keys : Word) (rnd : Byte) (s : State) :
    ∃ t, stepInstr keys rnd s = .next t ∧ t.phase = if t.result = .fatal then .halted else s.phase := by
  cases hfetch : fetchCheck (latchInputs keys rnd s) with
  | some f => exact ⟨_, stepInstr_fault hfetch, rfl⟩
  | none =>
    obtain ⟨t, ht⟩ := exec_answers (fetchInstr (latchInputs keys rnd s)) (latchInputs keys rnd s)
    exact ⟨t, (stepInstr_exec hfetch).trans ht, exec_phase (s := latchInputs keys rnd s) ht⟩

/-- Every accepted command answers a next state. -/
theorem runCommand_answers (c : Command) (s : State) : ∃ t, runCommand c s = .next t := by
  cases c with
  | step keys rnd =>
    obtain ⟨t, ht, -⟩ := stepInstr_phase keys rnd s
    exact ⟨t, ht⟩
  | _ => exact ⟨_, rfl⟩

/-- A LOAD that is too long enters HALTED, any other RUNNING. -/
theorem doLoad_phase (bytes : List Byte) (s : State) :
    (doLoad bytes s).phase = if bytes.length > 3584 then .halted else .running := by
  unfold doLoad
  split <;> rfl

/-- HALTED accepts RESET only. -/
theorem not_accepts_halted {c : Command} (h : c ≠ .reset) : accepts .halted c = false := by
  cases c with
  | reset => exact absurd rfl h
  | _ => rfl

/-! ## The statements -/

/-- Settles O7: the STEP is accepted, its fetch passes, and `fetchInstr` reads the two bytes at PC. -/
theorem stepRunsTheFetchedInstruction : Obligations.StepRunsTheFetchedInstruction :=
  fun _ _ _ _ => step_exec_of_fetchCheck

/-- Settles O9: each of the commands is accepted only in a phase that the hypothesis excludes. -/
theorem refusedCommandChangesNothing : Obligations.RefusedCommandChangesNothing := by
  intro s c rest hinbox h
  refine step_refused hinbox (Bool.eq_false_iff.mpr fun haccepted => ?_)
  rcases h with ⟨⟨keys, rnd, rfl⟩, hphase⟩ | ⟨rfl, hphase⟩ | ⟨⟨bytes, rfl⟩, hphase⟩ | ⟨rfl, hphase⟩
  · exact hphase (accepts_step haccepted)
  · exact hphase (accepts_none haccepted)
  · exact hphase (accepts_load haccepted)
  · exact accepts_tick haccepted hphase

/-- Settles O10: RESET runs, and every other command is refused. -/
theorem haltedIsFinalUntilReset : Obligations.HaltedIsFinalUntilReset := by
  intro s c rest hphase hinbox
  by_cases hc : c = .reset
  · subst hc
    exact ⟨_, step_reset hinbox, fun hne => absurd rfl hne, fun _ => doReset_phase _⟩
  · have hrefused := step_refused hinbox (hphase ▸ not_accepts_halted hc)
    exact ⟨_, hrefused, fun _ => ⟨rfl, rfl⟩, fun h => absurd h hc⟩

/-- Settles O11: command by command, in the phases that accept it by what it does, and in the others by the refusal. -/
theorem phaseTransitions : Obligations.PhaseTransitions := by
  intro s c rest hinbox
  have refused (ha : accepts s.phase c = false) : ∃ t, step s = .next t ∧ t.phase = s.phase :=
    ⟨_, step_refused hinbox ha, rfl⟩
  cases c with
  | reset => exact ⟨_, step_reset hinbox, doReset_phase _⟩
  | load bytes =>
    cases hphase : s.phase with
    | empty => exact ⟨_, step_load hphase hinbox, doLoad_phase bytes _⟩
    | running | halted =>
      rw [hphase] at refused
      exact refused rfl
  | step keys rnd =>
    cases hphase : s.phase with
    | running =>
      obtain ⟨t, ht, hfatal⟩ := stepInstr_phase keys rnd { s with inbox := rest }
      exact ⟨t, (step_running hphase hinbox).trans ht, by simpa only [hphase] using hfatal⟩
    | empty | halted =>
      rw [hphase] at refused
      exact refused rfl
  | tick =>
    cases ha : accepts s.phase .tick with
    | true => exact ⟨_, step_accepted hinbox ha, rfl⟩
    | false => exact refused ha
  | none =>
    cases ha : accepts s.phase .none with
    | true => exact ⟨_, step_accepted hinbox ha, rfl⟩
    | false => exact refused ha

/-- Settles O57: a refusal and every accepted command answer a next state. -/
theorem everyStepAnswersNext : Obligations.EveryStepAnswersNext := by
  intro s
  unfold step
  split
  · exact runCommand_answers ..
  · exact ⟨_, rfl⟩

/-- Settles O58: the fetched jump writes into PC the value it has. -/
theorem selfJumpChangesNothing : Obligations.SelfJumpChangesNothing := by
  intro s keys rnd rest hended hphase hinbox
  rcases hended with hhalted | ⟨-, hfetch, nnn, hjump, htarget⟩
  · rw [hphase] at hhalted
    cases hhalted
  · rw [step_exec_of_fetchCheck hphase hinbox hfetch, hjump]
    change Host.Outcome.next (complete (zextAddr nnn) _) = _
    rw [htarget]
    rfl

/-- Settles O59: NONE is accepted in RUNNING only, and neither its run nor its refusal changes more than the result. -/
theorem noneChangesNothing : Obligations.NoneChangesNothing := by
  intro s rest hinbox
  by_cases hphase : s.phase = .running
  · have haccepted := step_accepted hinbox (c := .none) (by rw [hphase]; rfl)
    exact ⟨_, haccepted, rfl, rfl, rfl, by rw [if_pos hphase]; rfl⟩
  · have hrefused := step_refused hinbox (Bool.eq_false_iff.mpr fun h => hphase (accepts_none h))
    exact ⟨_, hrefused, rfl, rfl, rfl, by rw [if_neg hphase]; rfl⟩

end Sys2Proof.Machine
end

section
/-!
SUPPORT. The invariants of 10 R41 with the canonical form of memory: what an instruction can do to memory, to the call
stack and to PC, and that each command keeps the invariants.
-/

namespace Sys2Proof.Machine

section
variable {i : Instr} {s t u : State}

/-! ## Memory -/

/-- The end of an instruction with a check keeps memory where its writes do. -/
theorem commitUnless_mem {check : Option Fatal} (h : commitUnless check i s u = .next t) (hu : u.mem = s.mem) :
    t.mem = s.mem := by
  cases check with
  | none =>
    obtain rfl := Host.Outcome.next.inj h
    exact hu
  | some f =>
    obtain rfl := Host.Outcome.next.inj h
    rfl

/-- A block store that passes its check keeps memory canonical, and one that fails writes nothing. -/
theorem commitUnless_store_wf {bs : List Byte} {count : Nat} (h : commitUnless (rangeCheck count s) i s u = .next t)
    (hlen : bs.length = count) (h0 : count ≠ 0) (hu : u.mem = s.mem.writeBytes (s.ea 0) bs)
    (hwf : s.mem.wf = true) : t.mem.wf = true := by
  subst hlen
  by_cases hfits : s.idx.toNat % 4096 + bs.length ≤ 4096
  · rw [rangeCheck_none (.inr hfits)] at h
    obtain rfl := Host.Outcome.next.inj h
    rw [hu]
    exact wf_writeBytes hwf (by rwa [ea_eq])
  · rw [rangeCheck_some h0 (Nat.lt_of_not_le hfits)] at h
    obtain rfl := Host.Outcome.next.inj h
    exact hwf

/-- Fx33 and Fx55 are the only instructions that write memory. -/
theorem exec_keeps_mem (hldB : ∀ x, i ≠ .ldB x) (hldMemVx : ∀ x, i ≠ .ldMemVx x) (h : exec i s = .next t) :
    t.mem = s.mem := by
  cases i with
  | ldB x => exact absurd rfl (hldB x)
  | ldMemVx x => exact absurd rfl (hldMemVx x)
  | ret x =>
    by_cases hsp : s.sp.val = 0
    · rw [← Host.Outcome.next.inj ((exec_ret_underflow x hsp).symm.trans h), raiseFatal_mem]
    · rw [← Host.Outcome.next.inj ((exec_ret_ok x hsp).symm.trans h), complete_mem]
  | call nnn =>
    by_cases hsp : s.sp.val < 16
    · rw [← Host.Outcome.next.inj ((exec_call_ok nnn hsp).symm.trans h), complete_mem]
    · rw [← Host.Outcome.next.inj ((exec_call_overflow nnn hsp).symm.trans h), raiseFatal_mem]
  | ldVxK x =>
    by_cases hk : s.keys = 0#16
    · rw [← Host.Outcome.next.inj ((exec_ldVxK_wait x hk).symm.trans h)]
    · obtain ⟨k, -, hexec⟩ := exec_ldVxK_take x hk
      rw [← Host.Outcome.next.inj (hexec.symm.trans h), complete_mem, setV_mem]
  | addReg | sub | shr | subn | shl =>
    rw [← Host.Outcome.next.inj h, complete_mem, writeFlagAndDest_eq]
  | drw => exact commitUnless_mem h rfl
  | ldVxMem => exact commitUnless_mem h rfl
  | _ =>
    rw [← Host.Outcome.next.inj h]
    rfl

/-- Every instruction keeps memory in its canonical form. -/
theorem exec_keeps_wf (hwf : s.mem.wf = true) (h : exec i s = .next t) : t.mem.wf = true := by
  by_cases hldB : ∃ x, i = .ldB x
  · obtain ⟨x, rfl⟩ := hldB
    exact commitUnless_store_wf h (decimalDigits_length (s.getV x)) (by decide) rfl hwf
  by_cases hldMemVx : ∃ x, i = .ldMemVx x
  · obtain ⟨x, rfl⟩ := hldMemVx
    exact commitUnless_store_wf h (registerBlock_length x s) (by omega) rfl hwf
  · push Not at hldB hldMemVx
    rwa [exec_keeps_mem hldB hldMemVx h]

/-- A LOAD stores two blocks that fit, or nothing. -/
theorem doLoad_wf (bytes : List Byte) (hwf : s.mem.wf = true) : (doLoad bytes s).mem.wf = true := by
  by_cases hfits : bytes.length ≤ 3584
  · rw [doLoad_fits hfits]
    exact wf_writeBytes (withFont_wf hwf) (program_length_le_memSize hfits)
  · rwa [doLoad_tooLong (Nat.lt_of_not_le hfits)]

/-! ## The call stack and PC -/

/-- A valid entry after an instruction is one from before it, or the return address of a call. -/
theorem exec_keeps_entries {P : Word → Prop} (hreturn : P s.pcNext)
    (hs : ∀ j : Fin 16, j.val < s.sp.val → P s.stack[j]) (h : exec i s = .next t) :
    ∀ j : Fin 16, j.val < t.sp.val → P t.stack[j] := by
  by_cases hret : ∃ x, i = .ret x
  · obtain ⟨x, rfl⟩ := hret
    by_cases hsp : s.sp.val = 0
    · obtain rfl := Host.Outcome.next.inj ((exec_ret_underflow x hsp).symm.trans h)
      exact hs
    · obtain rfl := Host.Outcome.next.inj ((exec_ret_ok x hsp).symm.trans h)
      exact fun j hj => hs j (Nat.lt_of_lt_of_le hj (Nat.sub_le ..))
  by_cases hcall : ∃ nnn, i = .call nnn
  · obtain ⟨nnn, rfl⟩ := hcall
    by_cases hsp : s.sp.val < 16
    · obtain rfl := Host.Outcome.next.inj ((exec_call_ok nnn hsp).symm.trans h)
      intro j hj
      have hj' : j.val < s.sp.val + 1 := hj
      change P (s.stack.set s.sp.val s.pcNext hsp)[j.val]
      rw [Vector.getElem_set]
      split
      · exact hreturn
      · exact hs j (by omega)
    · obtain rfl := Host.Outcome.next.inj ((exec_call_overflow nnn hsp).symm.trans h)
      exact hs
  · push Not at hret hcall
    obtain ⟨hsp, hstack⟩ := exec_keeps_stack hret hcall h
    rwa [hsp, hstack]

/-- PC after an instruction that can be fetched at an address of at most 0xFFE: at most 0x10FE, the greatest target of
Bnnn. -/
theorem pcAfter_le (hpc : s.pc.toNat ≤ 0xFFE) (hstack : StackBounded s) (i : Instr) :
    (pcAfter i s).toNat ≤ 0x10FE := by
  have hnext : (s.pc + 2).toNat ≤ 0x10FE := by
    rw [BitVec.toNat_add]
    change (s.pc.toNat + 2) % 65536 ≤ 0x10FE
    omega
  have hskip : (s.pc + 4).toNat ≤ 0x10FE := by
    rw [BitVec.toNat_add]
    change (s.pc.toNat + 4) % 65536 ≤ 0x10FE
    omega
  cases i with
  | jp nnn | call nnn =>
    have htarget : (nnn.setWidth 16).toNat = nnn.toNat := zextAddr_toNat nnn
    rw [pcAfter, htarget]
    omega
  | jpV0 nnn =>
    rw [pcAfter, ← jumpV0Target_eq, jumpV0Target_toNat]
    omega
  | ret x =>
    simp only [pcAfter]
    split
    · omega
    · next hsp => exact (hstack ⟨s.sp.val - 1, by omega⟩ (Nat.sub_one_lt hsp)).trans (by decide)
  | seImm | sneImm | seReg | sneReg | skp | sknp =>
    simp only [pcAfter]
    split
    · exact hskip
    · exact hnext
  | ldVxK x =>
    simp only [pcAfter]
    split
    · omega
    · exact hnext
  | _ => exact hnext

/-! ## The invariants -/

/-- The invariants do not speak of the registers but PC and SP, of the timers, the inputs or the result. -/
theorem Inv.of_unseen (h : Inv s) (dt st : Byte) (keys : Word) (rnd : Byte) (result : ResultCode)
    (inbox : List Command) (draws : Nat) :
    Inv { s with dt := dt, st := st, keys := keys, rnd := rnd, result := result, inbox := inbox, draws := draws } :=
  ⟨h.memory, h.stack, h.stackEven, h.pc, h.fault, h.empty⟩

/-- A blank EMPTY state meets the invariants. -/
theorem inv_of_blank (hphase : s.phase = .empty) (hcode : s.faultCode = .none)
    (hblank : s.mem = [] ∧ s.sp = 0 ∧ s.pc = 0x200 ∧ s.fb = Framebuffer.clear ∧
      s.faultPc = 0 ∧ s.faultInsn = 0 ∧ s.faultInfo = 0) : Inv s := by
  have ⟨hmem, hsp, hpc, _⟩ := hblank
  refine ⟨by rw [hmem]; rfl, fun j hj => ?_, fun _ j hj => ?_, ?_, ?_, fun _ => hblank⟩
  · simp [hsp] at hj
  · simp [hsp] at hj
  · rw [PcBounded, hpc]
    decide
  · simp [FaultCodeAgrees, hphase, hcode]

theorem inv_doReset : Inv (doReset s) :=
  inv_of_blank (by simp) (by simp) (by simp)

/-- Entering the fatal state changes PHASE and FAULT_CODE together. -/
theorem Inv.raiseFatal (h : Inv s) {f : Fatal} (hcode : f.code ≠ .none) (w : Word) :
    Inv (Machine.raiseFatal f w s) :=
  ⟨h.memory, h.stack, h.stackEven, h.pc, ⟨fun _ => rfl, fun _ => hcode⟩, nofun⟩

theorem Inv.doLoad (h : Inv s) (hphase : s.phase = .empty) (bytes : List Byte) : Inv (Machine.doLoad bytes s) := by
  have hwf := doLoad_wf bytes h.memory
  by_cases hfits : bytes.length ≤ 3584
  · rw [doLoad_fits hfits] at hwf ⊢
    refine ⟨hwf, h.stack, h.stackEven, h.pc, ?_, nofun⟩
    have hcode : s.faultCode = .none := by
      by_contra hne
      have hhalted := h.fault.mp hne
      rw [hphase] at hhalted
      cases hhalted
    simp [FaultCodeAgrees, hcode]
  · rw [doLoad_tooLong (Nat.lt_of_not_le hfits)]
    exact h.raiseFatal (by simp) 0

/-- An instruction whose fetch passed its checks keeps the invariants. -/
theorem Inv.exec (h : Inv s) (hphase : s.phase = .running) (hfetch : fetchCheck s = none)
    (hexec : Machine.exec i s = .next t) : Inv t := by
  rcases exec_cases hexec with ⟨f, hf, rfl⟩ | ⟨-, hend⟩
  · exact h.raiseFatal (raises_iff_fatalOf.mpr hf).code_ne_none _
  · have hpc := pc_le_of_fetchCheck hfetch
    have hparams : t.params = s.params := (exec_keeps_inputs hexec).1
    have hphase' : t.phase = s.phase := by rw [hend.keeps]
    have hcode : t.faultCode = s.faultCode := by rw [hend.keeps]
    have hreturn : s.pcNext.toNat = s.pc.toNat + 2 := by
      rw [State.pcNext, BitVec.toNat_add, BitVec.toNat_ofNat]
      omega
    refine ⟨exec_keeps_wf h.memory hexec, ?_, fun hodd => ?_, ?_, ?_, fun hempty => ?_⟩
    · exact exec_keeps_entries (P := fun a => a.toNat ≤ 0x1000) (by omega) h.stack hexec
    · rw [hparams] at hodd
      have heven := pc_even_of_fetchCheck hfetch hodd
      exact exec_keeps_entries (P := fun a => a.toNat % 2 = 0) (by omega) (h.stackEven hodd) hexec
    · rw [PcBounded, hend.pc]
      exact pcAfter_le hpc h.stack i
    · rw [FaultCodeAgrees, hphase', hcode]
      exact h.fault
    · rw [hphase', hphase] at hempty
      cases hempty

theorem takeCommand_phase (s : State) : (takeCommand s).2.phase = s.phase := by rw [takeCommand_eq]

theorem takeCommand_mem (s : State) : (takeCommand s).2.mem = s.mem := by rw [takeCommand_eq]

theorem takeCommand_params (s : State) : (takeCommand s).2.params = s.params := by rw [takeCommand_eq]

theorem Inv.takeCommand (h : Inv s) : Inv (Machine.takeCommand s).2 := by
  rw [takeCommand_eq]
  exact h.of_unseen s.dt s.st s.keys s.rnd s.result _ _

theorem doLoad_params (bytes : List Byte) (s : State) : (doLoad bytes s).params = s.params := by
  unfold doLoad
  split <;> rfl

end

/-! ## The statements -/

/-- Settles O53: each thing a step can do keeps the invariants. -/
theorem everyStepKeepsInvariants : Obligations.EveryStepKeepsInvariants := by
  intro s t hinv hstep
  have h := hinv.takeCommand
  have hphase := takeCommand_phase s
  obtain ⟨-, rfl⟩ | ⟨-, rfl⟩ | ⟨bytes, -, hempty, rfl⟩ | ⟨-, -, rfl⟩ | ⟨-, -, rfl⟩ |
    ⟨keys, rnd, f, -, -, hfetch, rfl⟩ | ⟨keys, rnd, -, hrunning, hfetch, hexec⟩ := step_cases hstep
  · exact h.of_unseen _ _ _ _ .rejected _ _
  · exact inv_doReset
  · exact h.doLoad (hphase.trans hempty) bytes
  · exact h.of_unseen _ _ _ _ .ok _ _
  · exact h.of_unseen _ _ _ _ .ok _ _
  · exact Inv.raiseFatal (h.of_unseen _ _ keys rnd _ _ _) (fetchCheck_some hfetch).1 0
  · exact Inv.exec (h.of_unseen _ _ keys rnd _ _ _) (hphase.trans hrunning) hfetch hexec

/-- Settles O54: the reset state is blank. -/
theorem resetMeetsInvariants : Obligations.ResetMeetsInvariants :=
  inv_of_blank rfl rfl ⟨rfl, rfl, rfl, rfl, rfl, rfl, rfl⟩

/-- Settles O55: only RESET, LOAD and an instruction write memory. -/
theorem everyStepKeepsMemoryCanonical : Obligations.EveryStepKeepsMemoryCanonical := by
  intro s t hwf hstep
  rw [← takeCommand_mem] at hwf
  obtain ⟨-, rfl⟩ | ⟨-, rfl⟩ | ⟨bytes, -, -, rfl⟩ | ⟨-, -, rfl⟩ | ⟨-, -, rfl⟩ |
    ⟨keys, rnd, f, -, -, -, rfl⟩ | ⟨keys, rnd, -, -, -, hexec⟩ := step_cases hstep
  · exact hwf
  · rw [doReset_mem]
    rfl
  · exact doLoad_wf bytes hwf
  · exact hwf
  · exact hwf
  · exact hwf
  · exact exec_keeps_wf (s := latchInputs keys rnd _) hwf hexec

/-- Settles O56: RESET carries the parameters over, and nothing else touches them. -/
theorem parametersNeverChange : Obligations.ParametersNeverChange := by
  intro s t hstep
  rw [← takeCommand_params s]
  obtain ⟨-, rfl⟩ | ⟨-, rfl⟩ | ⟨bytes, -, -, rfl⟩ | ⟨-, -, rfl⟩ | ⟨-, -, rfl⟩ |
    ⟨keys, rnd, f, -, -, -, rfl⟩ | ⟨keys, rnd, -, -, -, hexec⟩ := step_cases hstep
  · rfl
  · exact doReset_params _
  · exact doLoad_params bytes _
  · rfl
  · rfl
  · rfl
  · exact (exec_keeps_inputs hexec).1

end Sys2Proof.Machine
end
